-- ==== Sys2Proof/Word.lean ====
section
/-! DEFINITION. The word types of QCG: host words and bytes (00_scope.md R13), the 32-bit float format F32
and complex pairs of it (00_scope.md R10, R15), and the constellation's entry type (10_state.md R40). -/

namespace Sys2Proof

/-- One byte of the input stream or of the sink (20_memory.md R50). -/
abbrev Byte := BitVec 8

/-- One host register (10_state.md R24). -/
abbrev Word := BitVec 32

/-- A value of the 32-bit float format of 00_scope.md R15, by its three fields. Two values are equal when
every bit is, so nothing is canonicalised (44_sample_emitter.md R147). -/
structure F32 where
  /-- bit 31 -/
  sign : BitVec 1
  /-- bits 30:23, biased by 127 -/
  exp : BitVec 8
  /-- bits 22:0 -/
  frac : BitVec 23
deriving DecidableEq, Repr, Inhabited

/-- A pair (re, im) of F32 (00_scope.md R10); I is the real part, Q the imaginary part (R19). -/
structure C32 where
  re : F32
  im : F32
deriving DecidableEq, Repr, Inhabited

/-- A constellation entry: magnitude, and angle in degrees (10_state.md R40). -/
structure Symbol where
  mag : F32
  ang : F32
deriving DecidableEq, Repr, Inhabited

end Sys2Proof
end

