-- ==== Sys2Proof/Config.lean ====
section
/-! DEFINITION. What an implementation of QCG fixes (00_scope.md R9, R10) and the environment's free draws
(00_scope.md R14, 45_session.md R161). An opaque constant has no body that a proof could use. -/

namespace Sys2Proof

/-- The numerics record of 00_scope.md R10: five total functions, each a function of its arguments alone
(R12 (a)). What they are ideally is in Machine/Numerics.lean. -/
structure Num where
  /-- `angle a0 k M`: ideally `a0 + k * (360 / 2^M)` degrees. -/
  angle : F32 → Nat → Nat → F32
  /-- `deg2rad a`: ideally `a * π / 180`. -/
  deg2rad : F32 → F32
  /-- `cphase fc i fs`: ideally `2π * fc * i / fs` radians. -/
  cphase : Word → Nat → Word → F32
  /-- `polar r t`: ideally `(r * cos t, r * sin t)`. -/
  polar : F32 → F32 → C32
  /-- `cmul a b`: ideally the complex product. -/
  cmul : C32 → C32 → C32
deriving Inhabited

namespace Config

/-- How far `M_MAX` lies above 2: an argument of the model (00_scope.md R9, decision D7: OPEN), from 0 to 29. A free
value (log 1), safe within the bounds that log 1 deduces. -/
opaque mMaxSpare : Fin 30

/-- `M_MAX`, the largest accepted bits-per-symbol, an argument of the model (00_scope.md R9): 2 at least, since the
reset configuration is legal (70_reset_and_hazards.md R196), and 31 at most, since NSYM holds `2^M` in 32 bits
(10_state.md R34). The spec's default is 6. -/
def mMax : Nat := mMaxSpare.val + 2

/-- The bits of a register wide enough for 0 to `n`: 3 for 6 (10_state.md R37). -/
def widthFor (n : Nat) : Nat := Nat.log2 n + 1

/-- The width of bitsAccum, wide enough for 0 to `M_MAX` (10_state.md R37). -/
def countBits : Nat := widthFor mMax

/-- How far `SPS_MAX` lies above 1064: an argument of the model (00_scope.md R9, decision D8: OPEN). A free value
(log 1), safe within the bounds that log 1 deduces. -/
opaque spsMaxSpare : Fin 536869848

/-- `SPS_MAX`, the largest accepted samples-per-symbol, an argument of the model (00_scope.md R9): 1064 at least, since
the reset configuration is legal (70_reset_and_hazards.md R196), and below 2^29, since E_IO_SHORT records `8 * SPS` in
32 bits (60_exceptions.md R177). The spec's default is 4096. -/
def spsMax : Nat := spsMaxSpare.val + 1064

/-- `Num`, the numerics of the implementation (00_scope.md R9, R10; decision D12). A free value (log 2), safe:
a theorem about it holds for every numerics record. -/
opaque num : Num

/-- `draw(S)` of 00_scope.md R14 when the environment's answer is not listed in the state: the n-th answer,
under no law (45_session.md R161). A free value (log 4), safe. -/
opaque freeDraw : Nat → Nat

end Config

end Sys2Proof
end

