-- ==== Sys2Proof/Syntax.lean ====
section
/-! DEFINITION. The syntax of QCG: what arrives at its inputs (30_encoding.md R70 to R73, R85) and its
operations, one constructor per row of spec/opcode_table.json. -/

namespace Sys2Proof

/-- What the environment can offer to the block: one access on the host register port (format REG, 37 bits:
30_encoding.md R72), one byte of the input stream (format IN8: R71), or the reset event, which has no bits
(R85; 70_reset_and_hazards.md R195). -/
inductive Packet where
  | reg (w : BitVec 37)
  | in8 (b : Byte)
  | reset
deriving DecidableEq, Repr

/-- The format of an operation (30_encoding.md R70). -/
inductive Format where
  | reg
  | in8
  /-- no encoding (R85) -/
  | none
deriving DecidableEq, Repr

/-- The operations (00_scope.md R2), one constructor per row of the operation table. Bits that an operation
ignores (30_encoding.md R80) are kept as operands: `d` of `rdreg`, bits 7:1 of `push`. -/
inductive Instr where
  /-- RDREG n (40_register_access.md R91) -/
  | rdreg (n : BitVec 4) (d : Word)
  /-- BCON (41_constellation.md R101) -/
  | bcon
  /-- BTAB (42_waveform_table.md R111) -/
  | btab
  /-- OPEN (45_session.md R156) -/
  | openSession
  /-- EOI (45_session.md R158) -/
  | eoi
  /-- CMD.UNDEF: a write of any other value to CMD (60_exceptions.md R179) -/
  | cmdUndef (d : Word)
  /-- WRREG to register 4 (40_register_access.md R90) -/
  | wrregCfgM (d : Word)
  /-- WRREG to register 5 -/
  | wrregCfgFs (d : Word)
  /-- WRREG to register 6 -/
  | wrregCfgBaud (d : Word)
  /-- WRREG to register 7 -/
  | wrregCfgFc (d : Word)
  /-- WRREG to register 8 -/
  | wrregCfgAngle (d : Word)
  /-- WRREG to register 9 -/
  | wrregTblRows (d : Word)
  /-- WRREG to register 10 -/
  | wrregTblCols (d : Word)
  /-- WRREG to register 1, read-only (60_exceptions.md R179) -/
  | illegalStatus (d : Word)
  /-- WRREG to register 2, read-only -/
  | illegalErrExpect (d : Word)
  /-- WRREG to register 3, read-only -/
  | illegalErrActual (d : Word)
  /-- WRREG to register 11, read-only -/
  | illegalNsym (d : Word)
  /-- WRREG to register 12, read-only -/
  | illegalSps (d : Word)
  /-- WRREG to register 13, read-only -/
  | illegalRxbit (d : Word)
  /-- WRREG to register 14, read-only -/
  | illegalBitsacc (d : Word)
  /-- WRREG to register 15, reserved -/
  | illegalReserved15 (d : Word)
  /-- PUSH byte (43_bit_accumulator.md R126) -/
  | push (byte : Byte)
  /-- EMIT idx, inside PUSH only (44_sample_emitter.md R141) -/
  | emit (idx : BitVec Config.mMax)
  /-- RESET (70_reset_and_hazards.md R195) -/
  | reset
deriving DecidableEq, Repr

/-- The format column of the operation table. -/
def Instr.format : Instr → Format
  | .rdreg _ _ => .reg
  | .bcon => .reg
  | .btab => .reg
  | .openSession => .reg
  | .eoi => .reg
  | .cmdUndef _ => .reg
  | .wrregCfgM _ => .reg
  | .wrregCfgFs _ => .reg
  | .wrregCfgBaud _ => .reg
  | .wrregCfgFc _ => .reg
  | .wrregCfgAngle _ => .reg
  | .wrregTblRows _ => .reg
  | .wrregTblCols _ => .reg
  | .illegalStatus _ => .reg
  | .illegalErrExpect _ => .reg
  | .illegalErrActual _ => .reg
  | .illegalNsym _ => .reg
  | .illegalSps _ => .reg
  | .illegalRxbit _ => .reg
  | .illegalBitsacc _ => .reg
  | .illegalReserved15 _ => .reg
  | .push _ => .in8
  | .emit _ => .none
  | .reset => .none

end Sys2Proof
end

