-- ==== Sys2Proof/WellFormed.lean ====
section
/-! DEFINITION. Which terms of `Instr` stand for an operation. Operand widths are in the types; the one check
left is that CMD.UNDEF carries none of the four command codes (30_encoding.md R74, R79). -/

namespace Sys2Proof

/-- The four defined values of a write to CMD (30_encoding.md R73, R74). -/
def isCommandCode (d : Word) : Bool :=
  d == 1#32 || d == 2#32 || d == 3#32 || d == 4#32

/-- `i` stands for an operation of the block. -/
def Instr.wellFormed : Instr → Bool
  | .cmdUndef d => !isCommandCode d
  | .rdreg _ _ => true
  | .bcon => true
  | .btab => true
  | .openSession => true
  | .eoi => true
  | .wrregCfgM _ => true
  | .wrregCfgFs _ => true
  | .wrregCfgBaud _ => true
  | .wrregCfgFc _ => true
  | .wrregCfgAngle _ => true
  | .wrregTblRows _ => true
  | .wrregTblCols _ => true
  | .illegalStatus _ => true
  | .illegalErrExpect _ => true
  | .illegalErrActual _ => true
  | .illegalNsym _ => true
  | .illegalSps _ => true
  | .illegalRxbit _ => true
  | .illegalBitsacc _ => true
  | .illegalReserved15 _ => true
  | .push _ => true
  | .emit _ => true
  | .reset => true

end Sys2Proof
end

