-- ==== Sys2Proof/Decode.lean ====
section
/-! DEFINITION. The decoder (30_encoding.md R71 to R74, R78, R79), the framing of a packet in bytes, and the
encoder. -/

namespace Sys2Proof

/-! ### Fields of a REG access (30_encoding.md R72) -/

/-- Bit 36: 1 for a write. -/
def fieldW (w : BitVec 37) : BitVec 1 := w.extractLsb' 36 1

/-- Bits 35:32: the register number. -/
def fieldN (w : BitVec 37) : BitVec 4 := w.extractLsb' 32 4

/-- Bits 31:0: the data. -/
def fieldD (w : BitVec 37) : Word := w.extractLsb' 0 32

/-- The REG access with these three fields. -/
def packReg (w : BitVec 1) (n : BitVec 4) (d : Word) : BitVec 37 :=
  (w ++ n ++ d : BitVec (1 + 4 + 32))

/-! ### The decoder -/

/-- A write to CMD: the four command codes, with bits 31:8 zero, and every other value
(30_encoding.md R73, R74, R79). -/
def decodeCommand (d : Word) : Instr :=
  if d = 1#32 then .bcon
  else if d = 2#32 then .btab
  else if d = 3#32 then .openSession
  else if d = 4#32 then .eoi
  else .cmdUndef d

/-- A write to register `n` (30_encoding.md R78; 40_register_access.md R92). -/
def decodeWrite (n : BitVec 4) (d : Word) : Instr :=
  match n.toNat with
  | 0 => decodeCommand d
  | 1 => .illegalStatus d
  | 2 => .illegalErrExpect d
  | 3 => .illegalErrActual d
  | 4 => .wrregCfgM d
  | 5 => .wrregCfgFs d
  | 6 => .wrregCfgBaud d
  | 7 => .wrregCfgFc d
  | 8 => .wrregCfgAngle d
  | 9 => .wrregTblRows d
  | 10 => .wrregTblCols d
  | 11 => .illegalNsym d
  | 12 => .illegalSps d
  | 13 => .illegalRxbit d
  | 14 => .illegalBitsacc d
  | _ => .illegalReserved15 d

/-- The operation a packet stands for. Total with no refusal: every REG word and every byte is an operation,
legal or not (30_encoding.md R71, R79). -/
def decode : Packet → Instr
  | .reg w =>
    if fieldW w = 0#1 then .rdreg (fieldN w) (fieldD w) else decodeWrite (fieldN w) (fieldD w)
  | .in8 b => .push b
  | .reset => .reset

/-! ### Framing in bytes
How the 37 bits travel is the platform's and no rule depends on it (30_encoding.md R72). DESIGN CHOICE (log 7):
a REG access is five bytes, least significant first, with the three bits above bit 36 zero; an input byte is one
byte; the reset event, which has no encoding (R85), is no byte. -/

/-- Why a list of bytes frames no packet. -/
inductive FrameError where
  /-- A list of this length frames no packet. -/
  | badLength (n : Nat)
  /-- Five bytes with a bit set above bit 36. -/
  | bitsAbove36
deriving DecidableEq, Repr

/-- The packet that the bytes frame, or why there is none. -/
def packetOfBytes : List Byte → Except FrameError Packet
  | [] => .ok .reset
  | [b] => .ok (.in8 b)
  | [b0, b1, b2, b3, b4] =>
    if b4.toNat < 32 then
      .ok (.reg (BitVec.setWidth 37 (b4 ++ b3 ++ b2 ++ b1 ++ b0 : BitVec (8 + 8 + 8 + 8 + 8))))
    else .error .bitsAbove36
  | bs => .error (.badLength bs.length)

/-- The bytes that frame a packet. -/
def bytesOfPacket : Packet → List Byte
  | .reg w =>
    [w.extractLsb' 0 8, w.extractLsb' 8 8, w.extractLsb' 16 8, w.extractLsb' 24 8,
      BitVec.setWidth 8 (w.extractLsb' 32 5)]
  | .in8 b => [b]
  | .reset => []

/-- The operation that bytes stand for, refusing by name what frames no packet. -/
def decodeBytes (bs : List Byte) : Except FrameError Instr :=
  match packetOfBytes bs with
  | .ok p => .ok (decode p)
  | .error e => .error e

/-- The low `k` bytes of `w`, least significant first. -/
def lowBytes : Nat → Nat → List Byte
  | 0, _ => []
  | k + 1, w => BitVec.ofNat 8 w :: lowBytes k (w / 256)

/-- The packet of `nbits` bits (in whole bytes) numbered as spec/opcode_table.json numbers them. -/
def tablePacket (nbits w : Nat) : Except FrameError Packet :=
  packetOfBytes (lowBytes ((nbits + 7) / 8) w)

/-- The operation read from an encoding whose bits are `w`. -/
def decodeTableWord (nbits w : Nat) : Option Instr :=
  match tablePacket nbits w with
  | .ok p => some (decode p)
  | .error _ => none

/-! ### The encoder (30_encoding.md R72 to R74, R85) -/

/-- The packet of an operation; none for EMIT, which nobody issues (30_encoding.md R85). -/
def encode : Instr → Option Packet
  | .rdreg n d => some (.reg (packReg 0#1 n d))
  | .bcon => some (.reg (packReg 1#1 0#4 1#32))
  | .btab => some (.reg (packReg 1#1 0#4 2#32))
  | .openSession => some (.reg (packReg 1#1 0#4 3#32))
  | .eoi => some (.reg (packReg 1#1 0#4 4#32))
  | .cmdUndef d => some (.reg (packReg 1#1 0#4 d))
  | .illegalStatus d => some (.reg (packReg 1#1 1#4 d))
  | .illegalErrExpect d => some (.reg (packReg 1#1 2#4 d))
  | .illegalErrActual d => some (.reg (packReg 1#1 3#4 d))
  | .wrregCfgM d => some (.reg (packReg 1#1 4#4 d))
  | .wrregCfgFs d => some (.reg (packReg 1#1 5#4 d))
  | .wrregCfgBaud d => some (.reg (packReg 1#1 6#4 d))
  | .wrregCfgFc d => some (.reg (packReg 1#1 7#4 d))
  | .wrregCfgAngle d => some (.reg (packReg 1#1 8#4 d))
  | .wrregTblRows d => some (.reg (packReg 1#1 9#4 d))
  | .wrregTblCols d => some (.reg (packReg 1#1 10#4 d))
  | .illegalNsym d => some (.reg (packReg 1#1 11#4 d))
  | .illegalSps d => some (.reg (packReg 1#1 12#4 d))
  | .illegalRxbit d => some (.reg (packReg 1#1 13#4 d))
  | .illegalBitsacc d => some (.reg (packReg 1#1 14#4 d))
  | .illegalReserved15 d => some (.reg (packReg 1#1 15#4 d))
  | .push b => some (.in8 b)
  | .emit _ => none
  | .reset => some .reset

end Sys2Proof
end

