-- ==== Sys2Proof/Machine/State.lean ====
section
/-! DEFINITION. The state of QCG (10_state.md R21 to R48), what its environment offers and has been told, the
reasons a step can stop, and the state after reset. -/

namespace Sys2Proof.Machine

/-- PHASE (10_state.md R22). Codes 5 and 6 "are never held" and are not representable
(93_implementation_defined.md U23; log 15). -/
inductive Phase where
  /-- after reset; configuration writable -/
  | idle
  /-- constellation built -/
  | const
  /-- template and table built, no session yet -/
  | ready
  /-- a session is open -/
  | run
  /-- the last session ended cleanly -/
  | done
  /-- a fault was taken -/
  | fault
deriving DecidableEq, Repr

/-- FAULT, the cause codes of 60_exceptions.md R171. Codes 9 to 15 "are never produced" and are not
representable (93_implementation_defined.md U23; log 15). -/
inductive Cause where
  /-- no fault taken -/
  | none
  /-- E_CFG_M -/
  | cfgM
  /-- E_CFG_DIM -/
  | cfgDim
  /-- E_CFG_RATE -/
  | cfgRate
  /-- E_CFG_ANGLE -/
  | cfgAngle
  /-- E_IO_OPEN -/
  | ioOpen
  /-- E_IO_SHORT -/
  | ioShort
  /-- E_SEQ -/
  | seq
  /-- E_CMD -/
  | cmd
deriving DecidableEq, Repr

/-- The three memories (20_memory.md R50). -/
inductive Space where
  | const
  | tmpl
  | tbl
deriving DecidableEq, Repr

/-- One memory of the block: (entry address, entry), addresses strictly rising. An address that is not listed has
no value: the contents before the first write are unspecified (70_reset_and_hazards.md R197; log 9). -/
abbrev Mem (α : Type) := List (Nat × α)

/-- The environment of the block (10_state.md R20): no state of QCG, and the model's own. -/
structure Env where
  /-- the operations offered and not yet run, oldest first (10_state.md R46; log 5) -/
  inbox : List Packet
  /-- the environment's next answers to draws; when it is empty the answer is free (45_session.md R161; log 4) -/
  tape : List Nat
  /-- how many draws have been answered (log 4) -/
  draws : Nat
  /-- the values RDREG has returned to the host, oldest first (40_register_access.md R91; log 8) -/
  reads : List Word
deriving DecidableEq, Repr

/-- The state of QCG (10_state.md R21), with the sink's open or closed (R48), one history of the model's own
(`bits`) and its environment. -/
structure State where
  /-- PHASE (10_state.md R22) -/
  phase : Phase
  /-- FAULT (10_state.md R23) -/
  cause : Cause
  /-- ERR_EXPECT (10_state.md R23, R38) -/
  errExpect : Word
  /-- ERR_ACTUAL (10_state.md R23, R38) -/
  errActual : Word
  /-- CFG_M (10_state.md R27) -/
  cfgM : Word
  /-- CFG_FS (10_state.md R28) -/
  cfgFs : Word
  /-- CFG_BAUD (10_state.md R29) -/
  cfgBaud : Word
  /-- CFG_FC (10_state.md R30) -/
  cfgFc : Word
  /-- CFG_ANGLE (10_state.md R31) -/
  cfgAngle : Word
  /-- TBL_ROWS (10_state.md R32) -/
  tblRows : Word
  /-- TBL_COLS (10_state.md R33) -/
  tblCols : Word
  /-- NSYM (10_state.md R34) -/
  nsym : Word
  /-- SPS (10_state.md R35) -/
  sps : Word
  /-- rxBit (10_state.md R36) -/
  rxBit : BitVec Config.mMax
  /-- bitsAccum (10_state.md R37) -/
  bitsAccum : BitVec Config.countBits
  /-- CONST (10_state.md R40), addressed by symbol index -/
  const : Mem Symbol
  /-- TMPL (10_state.md R41), addressed by sample index -/
  tmpl : Mem C32
  /-- TBL (10_state.md R42), addressed by `s * SPS_MAX + i` (20_memory.md R50, R53) -/
  tbl : Mem C32
  /-- OUT (10_state.md R43), oldest sample first -/
  out : List C32
  /-- SINK (10_state.md R44), oldest byte first -/
  sink : List Byte
  /-- SYMS (10_state.md R45), oldest index first -/
  syms : List (BitVec Config.mMax)
  /-- whether the sink is open (10_state.md R48, last row) -/
  sinkOpen : Bool
  /-- the model's own history: the data bits taken in the current session, oldest first (log 12) -/
  bits : List (BitVec 1)
  /-- the environment, no state of the block -/
  env : Env
deriving DecidableEq, Repr

/-- Why the machine stops with no next state. The faults of the spec (60_exceptions.md R171) are not here: they
are states, reached by `State.raise`. -/
inductive Fault where
  /-- Raised by BTAB and EMIT (PUSH) on reading an entry that holds no value because nothing has written it:
  70_reset_and_hazards.md R197 lets a model do so. Safe: the model stops where a device reads something. -/
  | unwritten (space : Space) (address : Nat)
  /-- Raised by BTAB and EMIT (PUSH) on reading an entry outside the space (20_memory.md R50). Safe: the model
  stops, and the spec says that no operation does this (R51; 44_sample_emitter.md R142). -/
  | noEntry (space : Space) (address : Nat)
deriving DecidableEq, Repr

/-- Why an operation has no meaning in this model. -/
inductive Refusal where
  /-- Raised by an arm of `exec` whose instruction has no meaning yet; no arm raises it. Safe: the model stops. -/
  | notModelled (mnemonic : String)
deriving DecidableEq, Repr

/-- The environment right after reset with nothing placed in it (log 4, log 5, log 8). -/
def Env.quiet : Env := { inbox := [], tape := [], draws := 0, reads := [] }

/-- Every piece of state right after reset (10_state.md R48; 70_reset_and_hazards.md R196, R197). -/
def State.reset : State where
  phase := .idle
  cause := .none
  errExpect := 0#32
  errActual := 0#32
  cfgM := 2#32
  cfgFs := 1000000#32
  cfgBaud := 940#32
  cfgFc := 2440#32
  cfgAngle := 0x42340000#32
  tblRows := 4#32
  tblCols := 1064#32
  nsym := 0#32
  sps := 0#32
  rxBit := 0
  bitsAccum := 0
  const := []
  tmpl := []
  tbl := []
  out := []
  sink := []
  syms := []
  sinkOpen := false
  bits := []
  env := .quiet

end Sys2Proof.Machine
end

