-- ==== Sys2Proof/Machine/Memory.lean ====
section
/-! DEFINITION. The memories CONST, TMPL and TBL (20_memory.md R50 to R53) and the primitives `MemRead` and
`MemWrite` over them (00_scope.md R14). -/

namespace Sys2Proof.Machine

variable {α : Type}

/-- The entry at an address, or none where nothing has been written. -/
def Mem.read : Mem α → Nat → Option α
  | [], _ => none
  | (b, v) :: m, a => if a = b then some v else Mem.read m a

/-- Write one entry, keeping the addresses strictly rising. -/
def Mem.write : Mem α → Nat → α → Mem α
  | [], a, x => [(a, x)]
  | (b, v) :: m, a, x =>
    if a < b then (a, x) :: (b, v) :: m
    else if a = b then (a, x) :: m
    else (b, v) :: Mem.write m a x

/-- `MemWrite(SPACE:a, n, v)`: write consecutive entries from address `a` up, in order (00_scope.md R14). -/
def Mem.writeList : Mem α → Nat → List α → Mem α
  | m, _, [] => m
  | m, a, x :: xs => Mem.writeList (m.write a x) (a + 1) xs

/-- Every address is at least `low` and below `size`, and the addresses rise strictly. -/
def Mem.wfFrom (size : Nat) : Nat → Mem α → Bool
  | _, [] => true
  | low, (b, _) :: m => decide (low ≤ b) && decide (b < size) && Mem.wfFrom size (b + 1) m

/-- The canonical form of a memory of `size` entries. (An unlisted address has no value, so no listed entry can
equal what an unlisted one reads as.) -/
def Mem.wf (size : Nat) (m : Mem α) : Bool := Mem.wfFrom size 0 m

/-! ### The spaces (20_memory.md R50) -/

/-- CONST has `2^M_MAX` entries (10_state.md R40). -/
def constSize : Nat := 2 ^ Config.mMax

/-- TMPL has `SPS_MAX` entries (10_state.md R41). -/
def tmplSize : Nat := Config.spsMax

/-- TBL has `2^M_MAX * SPS_MAX` entries (10_state.md R42). -/
def tblSize : Nat := 2 ^ Config.mMax * Config.spsMax

/-- The address of `TBL[s][i]` (20_memory.md R50, R53; log 10). -/
def tblAddress (s i : Nat) : Nat := s * Config.spsMax + i

/-- Read one entry of a space of `size` entries. -/
def readEntry (space : Space) (size : Nat) (m : Mem α) (a : Nat) : Except Fault α :=
  if a < size then
    match m.read a with
    | some v => .ok v
    | none => .error (.unwritten space a)
  else .error (.noEntry space a)

/-- `CONST[k]`. -/
def readConst (m : Mem Symbol) (k : Nat) : Except Fault Symbol := readEntry .const constSize m k

/-- `TMPL[i]`. -/
def readTmpl (m : Mem C32) (i : Nat) : Except Fault C32 := readEntry .tmpl tmplSize m i

/-- `TBL[s][i]`; the pair names no entry where `i` is not below `SPS_MAX`. -/
def readTbl (m : Mem C32) (s i : Nat) : Except Fault C32 :=
  if i < Config.spsMax then readEntry .tbl tblSize m (tblAddress s i)
  else .error (.noEntry .tbl (tblAddress s i))

/-- `MemRead(SPACE:a, n)`: the `n` consecutive entries that `get` reads from index `a` up, in order
(00_scope.md R14). -/
def readRun (get : Nat → Except Fault α) : Nat → Nat → Except Fault (List α)
  | _, 0 => .ok []
  | a, n + 1 =>
    match get a with
    | .error e => .error e
    | .ok v =>
      match readRun get (a + 1) n with
      | .error e => .error e
      | .ok vs => .ok (v :: vs)

/-! ### One entry, as the statements read it -/

/-- `CONST[k]`, none where there is no such entry or it holds no value. -/
def constAt (s : State) (k : Nat) : Option Symbol := (readConst s.const k).toOption

/-- `TMPL[i]`, none where there is no such entry or it holds no value. -/
def tmplAt (s : State) (i : Nat) : Option C32 := (readTmpl s.tmpl i).toOption

/-- `TBL[r][i]`, none where there is no such entry or it holds no value. -/
def tblAt (s : State) (r i : Nat) : Option C32 := (readTbl s.tbl r i).toOption

end Sys2Proof.Machine
end

