-- ==== Sys2Proof/Machine/Numerics.lean ====
section
/-! DEFINITION. The float format (00_scope.md R15), what the functions of `Num` ideally mean (R10), the reference
numerics `Num_ref` as a property (R11), and the properties a proof may assume of a `Num` (R12). -/

namespace Sys2Proof.Machine

/-! ### Patterns and fields (00_scope.md R15) -/

/-- `enc32`: the 32-bit pattern of a float. -/
def enc32 (f : F32) : Word := (f.sign ++ f.exp ++ f.frac : BitVec (1 + 8 + 23))

/-- `dec32`: the float of a 32-bit pattern. -/
def dec32 (w : Word) : F32 where
  sign := w.extractLsb' 31 1
  exp := w.extractLsb' 23 8
  frac := w.extractLsb' 0 23

/-- Finite: the exponent field is not 255 (00_scope.md R15). -/
def isFinite (f : F32) : Bool := f.exp != 255#8

/-- The value 1.0, pattern 0x3F800000 (41_constellation.md R103). -/
def one32 : F32 := dec32 0x3F800000#32

/-! ### The real number a float stands for (00_scope.md R15) -/

/-- The significand as an integer: the fraction, with the implicit leading 1 unless the exponent field is 0. -/
def significand (f : F32) : Nat :=
  if f.exp.toNat = 0 then f.frac.toNat else 2 ^ 23 + f.frac.toNat

/-- The power of two, plus 149, that the significand is scaled by. -/
def scaleExp (f : F32) : Nat := f.exp.toNat - 1

/-- The number a finite float stands for: `(-1)^sign * significand * 2^(exp - 150)`, with the exponent of a
subnormal taken as 1. (Of an infinity or a NaN it says nothing.) -/
def floatValue (f : F32) : ℚ :=
  (if f.sign = 1#1 then -1 else 1) * ((significand f * 2 ^ scaleExp f : ℕ) : ℚ) / 2 ^ 149

/-! ### Ideal meanings (00_scope.md R10) -/

/-- `a0 + k * (360 / 2^M)` degrees. -/
def idealAngle (a0 : F32) (k M : Nat) : ℚ := floatValue a0 + k * (360 / 2 ^ M)

/-! ### The reference rounding (00_scope.md R11) -/

/-- `f` is the finite float nearest to `x`, ties to an even last bit, and +0.0 for an exact zero. Which zero
stands for a non-zero `x` that rounds to zero is left open (log 3). -/
def IsNearest (x : ℝ) (f : F32) : Prop :=
  isFinite f = true ∧ (x = 0 → f = dec32 0#32) ∧
    ∀ g : F32, isFinite g = true →
      |(floatValue f : ℝ) - x| ≤ |(floatValue g : ℝ) - x| ∧
        (|(floatValue g : ℝ) - x| = |(floatValue f : ℝ) - x| →
          floatValue g = floatValue f ∨ f.frac.getLsbD 0 = false)

/-- `c` is the pair of floats nearest to `(x, y)`. -/
def IsNearestPair (x y : ℝ) (c : C32) : Prop := IsNearest x c.re ∧ IsNearest y c.im

/-- Both components are finite. -/
def isFinitePair (c : C32) : Bool := isFinite c.re && isFinite c.im

/-- On finite arguments every function of `n` is its ideal meaning rounded by `round`, each function on its own
(00_scope.md R11). Where an argument of `cmul` is not finite there is no ideal product, and what R11 leaves is that the
product is commutative all the same (42_waveform_table.md R116). -/
structure RoundsWith (round : ℝ → F32) (n : Num) : Prop where
  angle : ∀ a0 k M, isFinite a0 = true → n.angle a0 k M = round (idealAngle a0 k M : ℝ)
  deg2rad : ∀ a, isFinite a = true → n.deg2rad a = round (floatValue a * Real.pi / 180)
  cphase : ∀ (fc : Word) (i : Nat) (fs : Word), fs ≠ 0#32 →
    n.cphase fc i fs = round (2 * Real.pi * fc.toNat * i / fs.toNat)
  polar : ∀ r t, isFinite r = true → isFinite t = true →
    n.polar r t =
      ⟨round (floatValue r * Real.cos (floatValue t)), round (floatValue r * Real.sin (floatValue t))⟩
  cmul : ∀ a b, isFinitePair a = true → isFinitePair b = true →
    n.cmul a b =
      ⟨round ((floatValue a.re * floatValue b.re - floatValue a.im * floatValue b.im : ℚ) : ℝ),
        round ((floatValue a.re * floatValue b.im + floatValue a.im * floatValue b.re : ℚ) : ℝ)⟩
  cmulNotFinite : ∀ a b, (isFinitePair a && isFinitePair b) = false → n.cmul a b = n.cmul b a

/-- `n` is the reference instantiation `Num_ref` (00_scope.md R11): its functions are rounded to the nearest float by one
function of the ideal number, so equal ideal numbers have the same float, bit for bit (DEDUCED, log 3). -/
def IsReference (n : Num) : Prop :=
  ∃ round : ℝ → F32, (∀ x, IsNearest x (round x)) ∧ RoundsWith round n

/-! ### What a proof may assume of a `Num` (00_scope.md R12); (a), determinism, is in the type -/

/-- R12 (b): `polar(1.0, t)` has magnitude 1.0 within `eps`, the open `EPS_MAG` (93_implementation_defined.md U4). -/
def HasUnitMagnitude (n : Num) (eps : ℝ) : Prop :=
  ∀ t, isFinite t = true → isFinitePair (n.polar one32 t) = true ∧
    |Real.sqrt ((floatValue (n.polar one32 t).re : ℝ) ^ 2 + (floatValue (n.polar one32 t).im : ℝ) ^ 2) - 1| ≤ eps

/-- `f` is the float of the representable number `x`: it has that value, and is +0.0, pattern 0x00000000, where `x` is 0
(95_test_vectors.md B2, B4 for the initial angle +0.0, else DEDUCED: log 16). Every other number is the value of at most
one float. -/
def IsFloatOf (x : ℚ) (f : F32) : Prop := isFinite f = true ∧ floatValue f = x ∧ (x = 0 → f = dec32 0#32)

/-- R12 (c): where the ideal angle is exactly the value of a float, `angle` returns that float, bit for bit. -/
def HasExactSpacing (n : Num) : Prop :=
  ∀ a0 k M f, isFinite a0 = true → IsFloatOf (idealAngle a0 k M) f → n.angle a0 k M = f

end Sys2Proof.Machine
end

