-- ==== Sys2Proof/Machine/Operands.lean ====
section
/-! DEFINITION. The operand forms: codes of PHASE and FAULT (10_state.md R22; 60_exceptions.md R171), the views the
host reads (10_state.md R24 to R39), the data bit of an input byte (30_encoding.md R77), and the serialisation of
samples (44_sample_emitter.md R146, R147). -/

namespace Sys2Proof.Machine

/-- The code of PHASE (10_state.md R22). -/
def phaseCode : Phase → BitVec 3
  | .idle => 0#3
  | .const => 1#3
  | .ready => 2#3
  | .run => 3#3
  | .done => 4#3
  | .fault => 7#3

/-- The code of FAULT (60_exceptions.md R171). -/
def causeCode : Cause → BitVec 4
  | .none => 0#4
  | .cfgM => 1#4
  | .cfgDim => 2#4
  | .cfgRate => 3#4
  | .cfgAngle => 4#4
  | .ioOpen => 5#4
  | .ioShort => 6#4
  | .seq => 7#4
  | .cmd => 8#4

/-- The code of PHASE as a 32-bit value, as E_SEQ records it (60_exceptions.md R178). -/
def phaseWord (p : Phase) : Word := (phaseCode p).setWidth 32

/-- STATUS: bits 2:0 PHASE, bit 3 zero, bits 7:4 FAULT, bits 31:8 zero (10_state.md R26). -/
def statusWord (s : State) : Word :=
  (0#24 ++ causeCode s.cause ++ 0#1 ++ phaseCode s.phase : BitVec (24 + 4 + 1 + 3))

/-- What a read of host register `n` returns (10_state.md R24; 40_register_access.md R91). -/
def readRegister (s : State) (n : BitVec 4) : Word :=
  match n.toNat with
  | 0 => 0#32
  | 1 => statusWord s
  | 2 => s.errExpect
  | 3 => s.errActual
  | 4 => s.cfgM
  | 5 => s.cfgFs
  | 6 => s.cfgBaud
  | 7 => s.cfgFc
  | 8 => s.cfgAngle
  | 9 => s.tblRows
  | 10 => s.tblCols
  | 11 => s.nsym
  | 12 => s.sps
  | 13 => BitVec.ofNat 32 s.rxBit.toNat
  | 14 => BitVec.ofNat 32 s.bitsAccum.toNat
  | _ => 0#32

/-- The data bit of an input byte: `byte[0]` (43_bit_accumulator.md R127). -/
def dataBit (byte : Byte) : BitVec 1 := byte.extractLsb' 0 1

/-- `2^m - 1` in `w` bits: the low `m` bits set, all of them when `m` is `w` or more (43_bit_accumulator.md R128;
log 14). -/
def lowMask (w m : Nat) : BitVec w := BitVec.ofNat w (2 ^ min m w - 1)

/-- `((x << 1) XOR b) AND (2^m - 1)`: one data bit shifted into a register of `w` bits (43_bit_accumulator.md R128). -/
def shiftBit {w : Nat} (m : Nat) (x : BitVec w) (b : BitVec 1) : BitVec w :=
  ((x <<< 1) ^^^ b.setWidth w) &&& lowMask w m

/-- `ceil(a / b)` of unsigned integers without overflow (00_scope.md R13; 42_waveform_table.md R112). -/
def ceilDiv (a b : Nat) : Nat := (a + b - 1) / b

/-- `le32`: the bytes of a word, least significant first (20_memory.md R55). -/
def le32 (w : Word) : List Byte :=
  [w.extractLsb' 0 8, w.extractLsb' 8 8, w.extractLsb' 16 8, w.extractLsb' 24 8]

/-- The eight bytes of one sample, I then Q (44_sample_emitter.md R146; 30_encoding.md R75). -/
def serSample (c : C32) : List Byte := le32 (enc32 c.re) ++ le32 (enc32 c.im)

/-- `ser`: the bytes of a sequence of samples (44_sample_emitter.md R146). -/
def ser : List C32 → List Byte
  | [] => []
  | c :: cs => serSample c ++ ser cs

/-- The word of four bytes, least significant first: the inverse of `le32`. -/
def wordOfBytes (b0 b1 b2 b3 : Byte) : Word := (b3 ++ b2 ++ b1 ++ b0 : BitVec (8 + 8 + 8 + 8))

/-- The samples that a byte sequence holds, eight bytes each: the inverse of `ser` (44_sample_emitter.md R149).
A rest of fewer than eight bytes holds none. -/
def deser : List Byte → List C32
  | b0 :: b1 :: b2 :: b3 :: b4 :: b5 :: b6 :: b7 :: bs =>
    ⟨dec32 (wordOfBytes b0 b1 b2 b3), dec32 (wordOfBytes b4 b5 b6 b7)⟩ :: deser bs
  | _ => []

/-- The constellation for initial angle `a0` and `m` bits per symbol: `2^m` symbols of magnitude 1.0, symbol `k` at
`Num.angle(a0, k, m)` degrees (41_constellation.md R101, R103). -/
def constellation (num : Num) (a0 : F32) (m : Nat) : List Symbol :=
  (List.range (2 ^ m)).map fun k => ⟨one32, num.angle a0 k m⟩

/-- Entry `i` of the carrier template (42_waveform_table.md R114). -/
def carrierSample (num : Num) (fc fs : Word) (i : Nat) : C32 := num.polar one32 (num.cphase fc i fs)

/-- The carrier template, `n` samples (42_waveform_table.md R114). -/
def carrier (num : Num) (fc fs : Word) (n : Nat) : List C32 :=
  (List.range n).map (carrierSample num fc fs)

/-- The multiplier of a symbol (42_waveform_table.md R116). -/
def multiplier (num : Num) (c : Symbol) : C32 := num.polar c.mag (num.deg2rad c.ang)

end Sys2Proof.Machine
end

