-- ==== Sys2Proof/Machine/Flags.lean ====
section
/-! DEFINITION. The two conditions that steer QCG (10_state.md R47), and what an operation finds of its phase
(30_encoding.md R78). There is no condition-code register. -/

namespace Sys2Proof.Machine

/-- *faulted*: `PHASE == P_FAULT` (10_state.md R47 (b)). -/
def faulted (s : State) : Bool := s.phase == .fault

/-- *symbol complete*: `bitsAccum == M`, tested inside PUSH after the increment (10_state.md R47 (a);
43_bit_accumulator.md R129). -/
def symbolComplete (s : State) : Bool := s.bitsAccum.toNat == s.cfgM.toNat

end Sys2Proof.Machine
end

