-- ==== Sys2Proof/Machine/Ops.lean ====
section
/-! DEFINITION. The shared operations: fault entry (60_exceptions.md R180), reset (70_reset_and_hazards.md R195), the
environment's draws (00_scope.md R14), the phase check (30_encoding.md R78), the builders (41_constellation.md R101,
42_waveform_table.md R111), the emission of a symbol (44_sample_emitter.md R141) and the intake of packets. -/

namespace Sys2Proof.Machine

/-- What a meaning answers. -/
abbrev Result := Host.Outcome State Fault Refusal

/-! ### Fault entry, and the way out of it -/

/-- `raise E_x(e, a)`: fault entry (60_exceptions.md R180). -/
def State.raise (s : State) (c : Cause) (e a : Word) : State :=
  { s with
    cause := c
    errExpect := e
    errActual := a
    sinkOpen := if s.phase = .run then false else s.sinkOpen
    phase := .fault }

/-- The reset event: every piece of state at its reset value; the environment is no state of the block
(70_reset_and_hazards.md R195, R199; log 13). It is the only way out of P_FAULT: there is no trap-return
operation (60_exceptions.md R182). -/
def State.resetEvent (s : State) : State := { State.reset with env := s.env }

/-! ### The environment -/

/-- The next answer of the environment to a draw: the next of those listed, else a free one
(00_scope.md R14; 45_session.md R161; log 4). -/
def State.nextAnswer (s : State) : Nat := s.env.tape.headD (Config.freeDraw s.env.draws)

/-- The state after one draw has been answered. -/
def State.answered (s : State) : State :=
  { s with env := { s.env with tape := s.env.tape.tail, draws := s.env.draws + 1 } }

/-- `draw({true, false})`. -/
def State.drawBool (s : State) : Bool := s.nextAnswer != 0

/-- `draw(0 .. n)`. -/
def State.drawUpTo (s : State) (n : Nat) : Nat := min s.nextAnswer n

/-- Return a value to the host (40_register_access.md R91; log 8). -/
def State.returnToHost (s : State) (v : Word) : State :=
  { s with env := { s.env with reads := s.env.reads ++ [v] } }

/-- The oldest packet offered, and the state once it has been; none where nothing is offered
(43_bit_accumulator.md R135; log 5). -/
def State.takePacket (s : State) : Option (Packet × State) :=
  match s.env.inbox with
  | [] => none
  | p :: ps => some (p, { s with env := { s.env with inbox := ps } })

/-- The state with `p` offered before everything else. -/
def State.offer (s : State) (p : Packet) : State :=
  { s with env := { s.env with inbox := p :: s.env.inbox } }

/-! ### The shape of an operation -/

/-- The outcome of a computation that may read an entry without a value. -/
def finish : Except Fault State → Result
  | .ok s => .next s
  | .error r => .fault r

/-- Priority (1) and (3) of 60_exceptions.md R184: nothing in P_FAULT (R182); E_SEQ with `want` where PHASE is not
one that the operation needs (R178); else the operation. -/
def inPhase (needs : Phase → Bool) (want : Phase) (s : State) (op : State → Result) : Result :=
  if faulted s then .next s
  else if needs s.phase then op s
  else .next (s.raise .seq (phaseWord want) (phaseWord s.phase))

/-- Priority (1) and (2) of 60_exceptions.md R184: nothing in P_FAULT; else E_CMD with the register number and the
data (R179). -/
def illegalWrite (n : Word) (d : Word) (s : State) : Result :=
  if faulted s then .next s else .next (s.raise .cmd n d)

/-- A write of a configuration register: in P_IDLE only (40_register_access.md R90, R92). -/
def writeConfig (put : State → State) (s : State) : Result :=
  inPhase (· == .idle) .idle s fun t => .next (put t)

/-! ### The builders -/

/-- BCON past its phase check (41_constellation.md R101, R102, R103). -/
def buildConstellation (num : Num) (s : State) : State :=
  if s.cfgM.toNat = 0 ∨ Config.mMax < s.cfgM.toNat then
    s.raise .cfgM (BitVec.ofNat 32 Config.mMax) s.cfgM
  else if isFinite (dec32 s.cfgAngle) = false then s.raise .cfgAngle 0#32 s.cfgAngle
  else
    { s with
      const := s.const.writeList 0 (constellation num (dec32 s.cfgAngle) s.cfgM.toNat)
      nsym := BitVec.ofNat 32 (2 ^ s.cfgM.toNat)
      phase := .const }

/-- One row of the table: `TBL[s][i] <- Num.cmul(TMPL[i], r)` for `i` in `0 .. n - 1` (42_waveform_table.md R116). -/
def buildRow (num : Num) (const : Mem Symbol) (tmpl : Mem C32) (n r : Nat) (tbl : Mem C32) :
    Except Fault (Mem C32) :=
  match readConst const r with
  | .error e => .error e
  | .ok c =>
    match readRun (readTmpl tmpl) 0 n with
    | .error e => .error e
    | .ok xs => .ok (tbl.writeList (tblAddress r 0) (xs.map fun x => num.cmul x (multiplier num c)))

/-- Rows `r`, `r + 1`, … of the table, as many as the count says (42_waveform_table.md R111, R119). -/
def buildRows (num : Num) (const : Mem Symbol) (tmpl : Mem C32) (n : Nat) :
    Nat → Nat → Mem C32 → Except Fault (Mem C32)
  | _, 0, tbl => .ok tbl
  | r, k + 1, tbl =>
    match buildRow num const tmpl n r tbl with
    | .error e => .error e
    | .ok tbl' => buildRows num const tmpl n (r + 1) k tbl'

/-- BTAB past its phase and value checks, with `n` samples per symbol (42_waveform_table.md R111). -/
def fillTables (num : Num) (n : Nat) (s : State) : Except Fault State :=
  let tmpl := s.tmpl.writeList 0 (carrier num s.cfgFc s.cfgFs n)
  match buildRows num s.const tmpl n 0 s.nsym.toNat s.tbl with
  | .error e => .error e
  | .ok tbl => .ok { s with tmpl := tmpl, tbl := tbl, sps := BitVec.ofNat 32 n, phase := .ready }

/-- BTAB past its phase check: its own checks, in the order of 60_exceptions.md R184, then the tables
(42_waveform_table.md R111, R113). -/
def buildTables (num : Num) (s : State) : Except Fault State :=
  let n := ceilDiv s.cfgFs.toNat s.cfgBaud.toNat
  if s.cfgFs = 0#32 then .ok (s.raise .cfgRate 1#32 0#32)
  else if s.cfgBaud = 0#32 then .ok (s.raise .cfgRate 2#32 0#32)
  else if Config.spsMax < n then
    .ok (s.raise .cfgRate (BitVec.ofNat 32 Config.spsMax) (BitVec.ofNat 32 n))
  else if s.tblRows ≠ s.nsym then .ok (s.raise .cfgDim s.nsym s.tblRows)
  else if s.tblCols.toNat ≠ n then .ok (s.raise .cfgDim (BitVec.ofNat 32 n) s.tblCols)
  else fillTables num n s

/-! ### Session -/

/-- `rxBit <- 0; bitsAccum <- 0`. -/
def State.clearAccumulator (s : State) : State := { s with rxBit := 0, bitsAccum := 0 }

/-- What OPEN clears before it asks the sink: the accumulator, OUT and SYMS (45_session.md R156, R157), and the
model's own history of the session's bits. -/
def State.startSession (s : State) : State :=
  { s.clearAccumulator with out := [], syms := [], bits := [] }

/-- OPEN past its phase check (45_session.md R156, R160). -/
def beginSession (s : State) : State :=
  let t := s.startSession
  if t.drawBool then { t.answered with sink := [], sinkOpen := true, phase := .run }
  else t.answered.raise .ioOpen 0#32 0#32

/-- EOI past its phase check (45_session.md R158, R159, R163). -/
def endSession (s : State) : State := { s.clearAccumulator with sinkOpen := false, phase := .done }

/-! ### Accumulation and emission -/

/-- Take one data bit: shift it into rxBit under the mask and count it (43_bit_accumulator.md R128). -/
def State.shiftIn (s : State) (b : BitVec 1) : State :=
  { s with
    rxBit := shiftBit s.cfgM.toNat s.rxBit b
    bitsAccum := s.bitsAccum + 1
    bits := s.bits ++ [b] }

/-- The part of EMIT after the row has been read: append it to OUT and the index to SYMS, offer the burst to the
sink, append what the sink took to SINK, and raise E_IO_SHORT if that is not all of it
(44_sample_emitter.md R141, R143 to R146; 45_session.md R162). -/
def State.emitRow (s : State) (idx : BitVec Config.mMax) (row : List C32) : State :=
  let burst := ser row
  let acc := s.drawUpTo burst.length
  let t := { s.answered with
    out := s.out ++ row
    syms := s.syms ++ [idx]
    sink := s.sink ++ burst.take acc }
  if acc = 8 * s.sps.toNat then t
  else t.raise .ioShort (BitVec.ofNat 32 (8 * s.sps.toNat)) (BitVec.ofNat 32 acc)

/-- EMIT idx (44_sample_emitter.md R141, R142). -/
def emitSymbol (idx : BitVec Config.mMax) (s : State) : Except Fault State :=
  match readRun (readTbl s.tbl idx.toNat) 0 s.sps.toNat with
  | .error e => .error e
  | .ok row => .ok (s.emitRow idx row)

/-- PUSH past its phase check (43_bit_accumulator.md R126, R129): the accumulator is cleared after the emission, and
not when the emission raised. -/
def pushBit (b : BitVec 1) (s : State) : Except Fault State :=
  let t := s.shiftIn b
  if symbolComplete t then
    match emitSymbol t.rxBit t with
    | .error e => .error e
    | .ok u => if faulted u then .ok u else .ok u.clearAccumulator
  else .ok t

end Sys2Proof.Machine
end

