-- ==== Sys2Proof/Machine/Builders.lean ====
section
/-! DEFINITION. The meanings of BCON (41_constellation.md) and BTAB (42_waveform_table.md). -/

namespace Sys2Proof.Machine

/-- BCON (41_constellation.md R101, R107). -/
def execBcon (s : State) : Result :=
  inPhase (· == .idle) .idle s fun t => .next (buildConstellation Config.num t)

/-- BTAB (42_waveform_table.md R111, R120). -/
def execBtab (s : State) : Result :=
  inPhase (· == .const) .const s fun t => finish (buildTables Config.num t)

end Sys2Proof.Machine
end

