-- ==== Sys2Proof/Machine/HostAccess.lean ====
section
/-! DEFINITION. The meanings of host register access (40_register_access.md; 60_exceptions.md R179): RDREG, the seven
legal WRREGs, the eight illegal ones, and an undefined command. -/

namespace Sys2Proof.Machine

/-- RDREG n: legal in every phase, no side effect but the value returned (40_register_access.md R91;
20_memory.md R66). Bits 31:0 of the access are not used (30_encoding.md R72, R80). -/
def execRdreg (n : BitVec 4) (s : State) : Result := .next (s.returnToHost (readRegister s n))

/-- WRREG CFG_M, d (40_register_access.md R90; 10_state.md R27). -/
def execWrregCfgM (d : Word) (s : State) : Result := writeConfig (fun t => { t with cfgM := d }) s

/-- WRREG CFG_FS, d (40_register_access.md R90; 10_state.md R28). -/
def execWrregCfgFs (d : Word) (s : State) : Result := writeConfig (fun t => { t with cfgFs := d }) s

/-- WRREG CFG_BAUD, d (40_register_access.md R90; 10_state.md R29). -/
def execWrregCfgBaud (d : Word) (s : State) : Result := writeConfig (fun t => { t with cfgBaud := d }) s

/-- WRREG CFG_FC, d (40_register_access.md R90; 10_state.md R30). -/
def execWrregCfgFc (d : Word) (s : State) : Result := writeConfig (fun t => { t with cfgFc := d }) s

/-- WRREG CFG_ANGLE, d (40_register_access.md R90; 10_state.md R31). -/
def execWrregCfgAngle (d : Word) (s : State) : Result := writeConfig (fun t => { t with cfgAngle := d }) s

/-- WRREG TBL_ROWS, d (40_register_access.md R90; 10_state.md R32). -/
def execWrregTblRows (d : Word) (s : State) : Result := writeConfig (fun t => { t with tblRows := d }) s

/-- WRREG TBL_COLS, d (40_register_access.md R90; 10_state.md R33). -/
def execWrregTblCols (d : Word) (s : State) : Result := writeConfig (fun t => { t with tblCols := d }) s

/-- WRREG STATUS, d: a read-only register (60_exceptions.md R179). -/
def execIllegalStatus (d : Word) (s : State) : Result := illegalWrite 1#32 d s

/-- WRREG ERR_EXPECT, d: a read-only register (60_exceptions.md R179). -/
def execIllegalErrExpect (d : Word) (s : State) : Result := illegalWrite 2#32 d s

/-- WRREG ERR_ACTUAL, d: a read-only register (60_exceptions.md R179). -/
def execIllegalErrActual (d : Word) (s : State) : Result := illegalWrite 3#32 d s

/-- WRREG NSYM, d: a read-only register (60_exceptions.md R179). -/
def execIllegalNsym (d : Word) (s : State) : Result := illegalWrite 11#32 d s

/-- WRREG SPS, d: a read-only register (60_exceptions.md R179). -/
def execIllegalSps (d : Word) (s : State) : Result := illegalWrite 12#32 d s

/-- WRREG RXBIT, d: a read-only register (60_exceptions.md R179). -/
def execIllegalRxbit (d : Word) (s : State) : Result := illegalWrite 13#32 d s

/-- WRREG BITSACC, d: a read-only register (60_exceptions.md R179). -/
def execIllegalBitsacc (d : Word) (s : State) : Result := illegalWrite 14#32 d s

/-- WRREG 15, d: the reserved register (10_state.md R39; 60_exceptions.md R179). -/
def execIllegalReserved15 (d : Word) (s : State) : Result := illegalWrite 15#32 d s

/-- WRREG CMD, d with `d` no command code (30_encoding.md R79; 60_exceptions.md R179). -/
def execCmdUndef (d : Word) (s : State) : Result := illegalWrite 0#32 d s

end Sys2Proof.Machine
end

