-- ==== Sys2Proof/Machine/Stream.lean ====
section
/-! DEFINITION. The meanings of the session (45_session.md): OPEN, EOI; of the input byte PUSH
(43_bit_accumulator.md), of the micro-operation EMIT (44_sample_emitter.md), and of RESET
(70_reset_and_hazards.md). -/

namespace Sys2Proof.Machine

/-- OPEN: in P_READY or P_DONE; elsewhere E_SEQ records P_READY (45_session.md R156; 60_exceptions.md R178). -/
def execOpenSession (s : State) : Result :=
  inPhase (fun p => p == .ready || p == .done) .ready s fun t => .next (beginSession t)

/-- EOI (45_session.md R158). -/
def execEoi (s : State) : Result :=
  inPhase (· == .run) .run s fun t => .next (endSession t)

/-- PUSH byte: bits 7:1 play no part (43_bit_accumulator.md R126, R127). In P_FAULT it is without effect (log 6). -/
def execPush (byte : Byte) (s : State) : Result :=
  inPhase (· == .run) .run s fun t => finish (pushBit (dataBit byte) t)

/-- EMIT idx on its own (44_sample_emitter.md R141). It is never issued (30_encoding.md R85): PUSH runs
`emitSymbol` itself. DEDUCED (log 11), safe: outside P_RUN it raises E_SEQ, as the row of R78 says. -/
def execEmit (idx : BitVec Config.mMax) (s : State) : Result :=
  inPhase (· == .run) .run s fun t => finish (emitSymbol idx t)

/-- RESET: in every phase (70_reset_and_hazards.md R195). -/
def execReset (s : State) : Result := .next s.resetEvent

end Sys2Proof.Machine
end

