-- ==== Sys2Proof/Machine/Dispatch.lean ====
section
/-! DEFINITION. One arm per operation. -/

namespace Sys2Proof.Machine

def exec (i : Instr) (s : State) : Host.Outcome State Fault Refusal :=
  match i with
  | .rdreg n _ => Sys2Proof.Machine.execRdreg n s
  | .bcon => Sys2Proof.Machine.execBcon s
  | .btab => Sys2Proof.Machine.execBtab s
  | .openSession => Sys2Proof.Machine.execOpenSession s
  | .eoi => Sys2Proof.Machine.execEoi s
  | .cmdUndef d => Sys2Proof.Machine.execCmdUndef d s
  | .wrregCfgM d => Sys2Proof.Machine.execWrregCfgM d s
  | .wrregCfgFs d => Sys2Proof.Machine.execWrregCfgFs d s
  | .wrregCfgBaud d => Sys2Proof.Machine.execWrregCfgBaud d s
  | .wrregCfgFc d => Sys2Proof.Machine.execWrregCfgFc d s
  | .wrregCfgAngle d => Sys2Proof.Machine.execWrregCfgAngle d s
  | .wrregTblRows d => Sys2Proof.Machine.execWrregTblRows d s
  | .wrregTblCols d => Sys2Proof.Machine.execWrregTblCols d s
  | .illegalStatus d => Sys2Proof.Machine.execIllegalStatus d s
  | .illegalErrExpect d => Sys2Proof.Machine.execIllegalErrExpect d s
  | .illegalErrActual d => Sys2Proof.Machine.execIllegalErrActual d s
  | .illegalNsym d => Sys2Proof.Machine.execIllegalNsym d s
  | .illegalSps d => Sys2Proof.Machine.execIllegalSps d s
  | .illegalRxbit d => Sys2Proof.Machine.execIllegalRxbit d s
  | .illegalBitsacc d => Sys2Proof.Machine.execIllegalBitsacc d s
  | .illegalReserved15 d => Sys2Proof.Machine.execIllegalReserved15 d s
  | .push byte => Sys2Proof.Machine.execPush byte s
  | .emit idx => Sys2Proof.Machine.execEmit idx s
  | .reset => Sys2Proof.Machine.execReset s

end Sys2Proof.Machine
end

