-- ==== Sys2Proof/Machine/Step.lean ====
section
/-! DEFINITION. One step: run the oldest operation offered (20_memory.md R62), or wait (43_bit_accumulator.md
R135). -/

namespace Sys2Proof.Machine

/-- One step of QCG. It fetches nothing (10_state.md R22): the environment offers operations, and each is run from
its start to its end before the next. Where nothing is offered nothing happens (log 5). -/
def step (s : State) : Host.Outcome State Fault Refusal :=
  match s.takePacket with
  | none => .next s
  | some (p, t) => exec (decode p) t

/-- The state in which the operation whose bits are `w` is the next one offered; unchanged where `w` frames no
packet. It stands for the environment's act of offering the operation (log 5). -/
def State.withFetchWord (s : State) (nbits w : Nat) : State :=
  match tablePacket nbits w with
  | .ok p => s.offer p
  | .error _ => s

end Sys2Proof.Machine
end

