-- ==== Sys2Proof/Safety.lean ====
section
/-! DEFINITION. What counts as a sound state and a safe run of QCG: the invariants of 10_state.md R49 and R44, R45,
the accumulator's R131, and the result of a session (45_session.md R165; 70_reset_and_hazards.md R209). -/

namespace Sys2Proof.Safety

open Sys2Proof.Machine

/-! ### What a sequence of data bits yields (30_encoding.md R76; 43_bit_accumulator.md R130, R134) -/

/-- The unsigned number of a bit sequence, first bit most significant. -/
def bitsValue : List (BitVec 1) → Nat := List.foldl (fun v b => 2 * v + b.toNat) 0

/-- The `t`-th group of `m` bits. -/
def group (m : Nat) (bits : List (BitVec 1)) (t : Nat) : List (BitVec 1) := (bits.drop (t * m)).take m

/-- The indices of the symbols that a bit sequence completes, `m` bits each: `n div m` of them
(43_bit_accumulator.md R134; 45_session.md R165). -/
def symbolsOf (m : Nat) (bits : List (BitVec 1)) : List Nat :=
  (List.range (bits.length / m)).map fun t => bitsValue (group m bits t)

/-- The bits left over: the partial symbol (43_bit_accumulator.md R134). -/
def partialOf (m : Nat) (bits : List (BitVec 1)) : List (BitVec 1) := bits.drop (bits.length / m * m)

/-! ### What the builders leave -/

/-- CONST and NSYM as BCON leaves them, with the configuration it accepts (10_state.md R49 (a)). -/
structure ConstellationBuilt (s : State) : Prop where
  mPos : 1 ≤ s.cfgM.toNat
  mMax : s.cfgM.toNat ≤ Config.mMax
  nsym : s.nsym.toNat = 2 ^ s.cfgM.toNat
  angle : isFinite (dec32 s.cfgAngle) = true
  entries : ∀ k, k < s.nsym.toNat →
    constAt s k = some ⟨one32, Config.num.angle (dec32 s.cfgAngle) k s.cfgM.toNat⟩

/-- The entry `TBL[r][i]` that BTAB computes (42_waveform_table.md R116). -/
def tableEntry (s : State) (r i : Nat) : C32 :=
  Config.num.cmul (Config.num.polar one32 (Config.num.cphase s.cfgFc i s.cfgFs))
    (Config.num.polar one32 (Config.num.deg2rad (Config.num.angle (dec32 s.cfgAngle) r s.cfgM.toNat)))

/-- TMPL, TBL and SPS as BTAB leaves them, with the configuration it accepts (10_state.md R49 (b)). -/
structure TableBuilt (s : State) : Prop where
  fsPos : s.cfgFs ≠ 0#32
  baudPos : s.cfgBaud ≠ 0#32
  sps : s.sps.toNat = ceilDiv s.cfgFs.toNat s.cfgBaud.toNat
  spsPos : 1 ≤ s.sps.toNat
  spsMax : s.sps.toNat ≤ Config.spsMax
  rows : s.tblRows = s.nsym
  cols : s.tblCols = s.sps
  template : ∀ i, i < s.sps.toNat →
    tmplAt s i = some (Config.num.polar one32 (Config.num.cphase s.cfgFc i s.cfgFs))
  table : ∀ r i, r < s.nsym.toNat → i < s.sps.toNat → tblAt s r i = some (tableEntry s r i)

/-- Row `r` of the table, SPS samples. -/
def tableRow (s : State) (r : Nat) : List C32 := (List.range s.sps.toNat).map (tableEntry s r)

/-- The histories of a session are those of the bits taken in it (45_session.md R165; 10_state.md R44, R45). -/
structure SessionOutput (s : State) : Prop where
  syms : s.syms.map BitVec.toNat = symbolsOf s.cfgM.toNat s.bits
  out : s.out = (symbolsOf s.cfgM.toNat s.bits).flatMap (tableRow s)
  sink : s.sink = ser s.out

/-! ### The invariant -/

/-- The sound states: canonical memories, a fault recorded exactly in P_FAULT (10_state.md R47), the sink open
exactly in P_RUN (R48; 45_session.md R160, R163), R49 (a) to (d), and the session's histories (R44, R45). -/
structure Sound (s : State) : Prop where
  constWf : s.const.wf constSize = true
  tmplWf : s.tmpl.wf tmplSize = true
  tblWf : s.tbl.wf tblSize = true
  faultRecord : s.cause ≠ .none ↔ s.phase = .fault
  sinkState : s.sinkOpen = true ↔ s.phase = .run
  built : s.phase = .const ∨ s.phase = .ready ∨ s.phase = .run ∨ s.phase = .done → ConstellationBuilt s
  table : s.phase = .ready ∨ s.phase = .run ∨ s.phase = .done → TableBuilt s
  cleared : s.phase ≠ .run → s.phase ≠ .fault → s.rxBit = 0 ∧ s.bitsAccum = 0
  running : s.phase = .run →
    s.bitsAccum.toNat = s.bits.length % s.cfgM.toNat ∧
      s.rxBit.toNat = bitsValue (partialOf s.cfgM.toNat s.bits)
  session : s.phase = .run ∨ s.phase = .done → SessionOutput s
  noSession : s.phase = .idle ∨ s.phase = .const ∨ s.phase = .ready →
    s.out = [] ∧ s.sink = [] ∧ s.syms = [] ∧ s.bits = []
  unbuilt : s.phase = .idle → s.nsym = 0#32 ∧ s.sps = 0#32
  untabled : s.phase = .const → s.sps = 0#32

/-- A step that goes on: neither a model fault nor a refusal. -/
def GoesOn (o : Host.Outcome State Fault Refusal) : Prop := ∃ s, o = .next s

/-- The end of a run (70_reset_and_hazards.md R209). -/
def Ended (s : State) : Prop := s.phase = .done

end Sys2Proof.Safety
end

