-- ==== Sys2Proof/Certificates/Slice0/Obligations.lean ====
section
/-! DEFINITION. The statements for the provers. Each docstring names the rule of spec/ it rests on. -/

open Sys2Proof Sys2Proof.Machine Sys2Proof.Safety

/-! ## Encoding -/

/-- 30_encoding.md R71 to R74, R85: what the encoder writes, the decoder reads back, as a packet and as the model's
bytes (log 7), with every operand; only EMIT has no encoding. -/
def Obligations.EncodeThenDecodeGivesTheOperation : Prop :=
  ∀ i : Instr, i.wellFormed = true →
    (∀ p, encode i = some p → decode p = i ∧ decodeBytes (bytesOfPacket p) = .ok i) ∧
      (encode i = none ↔ ∃ idx, i = .emit idx)

/-- 30_encoding.md R71, R72, R79: every packet is an operation, and has one meaning. -/
def Obligations.DecodeThenEncodeGivesThePacket : Prop :=
  ∀ p : Packet, (decode p).wellFormed = true ∧ encode (decode p) = some p

/-- The match and mask columns of the operation table (30_encoding.md R72, R73, R74, R78): which REG words are which
operation, with the data in bits 31:0. -/
def Obligations.OperationTableRowsDecode : Prop :=
  ∀ w : BitVec 37,
    (w &&& 0x1000000000#37 = 0#37 → decode (.reg w) = .rdreg (w.extractLsb' 32 4) (w.extractLsb' 0 32)) ∧
    (w = 0x1000000001#37 → decode (.reg w) = .bcon) ∧
    (w = 0x1000000002#37 → decode (.reg w) = .btab) ∧
    (w = 0x1000000003#37 → decode (.reg w) = .openSession) ∧
    (w = 0x1000000004#37 → decode (.reg w) = .eoi) ∧
    (w &&& 0x1F00000000#37 = 0x1000000000#37 →
      w ≠ 0x1000000001#37 → w ≠ 0x1000000002#37 → w ≠ 0x1000000003#37 → w ≠ 0x1000000004#37 →
        decode (.reg w) = .cmdUndef (w.extractLsb' 0 32)) ∧
    (w &&& 0x1F00000000#37 = 0x1100000000#37 → decode (.reg w) = .illegalStatus (w.extractLsb' 0 32)) ∧
    (w &&& 0x1F00000000#37 = 0x1200000000#37 → decode (.reg w) = .illegalErrExpect (w.extractLsb' 0 32)) ∧
    (w &&& 0x1F00000000#37 = 0x1300000000#37 → decode (.reg w) = .illegalErrActual (w.extractLsb' 0 32)) ∧
    (w &&& 0x1F00000000#37 = 0x1400000000#37 → decode (.reg w) = .wrregCfgM (w.extractLsb' 0 32)) ∧
    (w &&& 0x1F00000000#37 = 0x1500000000#37 → decode (.reg w) = .wrregCfgFs (w.extractLsb' 0 32)) ∧
    (w &&& 0x1F00000000#37 = 0x1600000000#37 → decode (.reg w) = .wrregCfgBaud (w.extractLsb' 0 32)) ∧
    (w &&& 0x1F00000000#37 = 0x1700000000#37 → decode (.reg w) = .wrregCfgFc (w.extractLsb' 0 32)) ∧
    (w &&& 0x1F00000000#37 = 0x1800000000#37 → decode (.reg w) = .wrregCfgAngle (w.extractLsb' 0 32)) ∧
    (w &&& 0x1F00000000#37 = 0x1900000000#37 → decode (.reg w) = .wrregTblRows (w.extractLsb' 0 32)) ∧
    (w &&& 0x1F00000000#37 = 0x1A00000000#37 → decode (.reg w) = .wrregTblCols (w.extractLsb' 0 32)) ∧
    (w &&& 0x1F00000000#37 = 0x1B00000000#37 → decode (.reg w) = .illegalNsym (w.extractLsb' 0 32)) ∧
    (w &&& 0x1F00000000#37 = 0x1C00000000#37 → decode (.reg w) = .illegalSps (w.extractLsb' 0 32)) ∧
    (w &&& 0x1F00000000#37 = 0x1D00000000#37 → decode (.reg w) = .illegalRxbit (w.extractLsb' 0 32)) ∧
    (w &&& 0x1F00000000#37 = 0x1E00000000#37 → decode (.reg w) = .illegalBitsacc (w.extractLsb' 0 32)) ∧
    (w &&& 0x1F00000000#37 = 0x1F00000000#37 → decode (.reg w) = .illegalReserved15 (w.extractLsb' 0 32))

/-- Words written out from 30_encoding.md R71 to R74 and the encodings of 95_test_vectors.md, one or more of every
family; the framing of a word in bytes, and so the last clause, is the model's choice (log 7). -/
def Obligations.WrittenOutWordsDecode : Prop :=
  decodeTableWord 40 0x0B00000000 = some (.rdreg 11#4 0#32) ∧
    decodeTableWord 40 0x160001F400 = some (.wrregCfgBaud 128000#32) ∧
    decodeTableWord 40 0x1042340000 = some (.cmdUndef 0x42340000#32) ∧
    decodeTableWord 40 0x1F00000005 = some (.illegalReserved15 5#32) ∧
    decodeTableWord 40 0x1000000001 = some .bcon ∧
    decodeTableWord 40 0x1000000002 = some .btab ∧
    decodeTableWord 40 0x1000000003 = some .openSession ∧
    decodeTableWord 40 0x1000000004 = some .eoi ∧
    decodeTableWord 8 0xFE = some (.push 0xFE#8) ∧
    decodeTableWord 40 0x2000000001 = none

/-- 30_encoding.md R71, R77 and 43_bit_accumulator.md R127: bits 7:1 of an input byte play no part in any effect,
nor does the data field of a RDREG (R72). -/
def Obligations.IgnoredBitsPlayNoPart : Prop :=
  ∀ s : State,
    (∀ b c : Byte, b.getLsbD 0 = c.getLsbD 0 → exec (.push b) s = exec (.push c) s) ∧
      ∀ (n : BitVec 4) (d e : Word), exec (.rdreg n d) s = exec (.rdreg n e) s

/-! ## The step -/

/-- 10_state.md R20, R46, 20_memory.md R62 and 43_bit_accumulator.md R135: a step runs the oldest operation offered,
on the state without it; where nothing is offered nothing changes. The model's choices here: how operations are offered
(log 5); that a PUSH offered in P_FAULT leaves the inbox like any other packet, though its byte is not taken
(43_bit_accumulator.md R126, 60_exceptions.md R182; log 6); and the framing in bytes that `withFetchWord` reads (log 7). -/
def Obligations.StepRunsTheOldestOperationOffered : Prop :=
  ∀ s : State,
    (∀ p ps, s.env.inbox = p :: ps → step s = exec (decode p) { s with env := { s.env with inbox := ps } }) ∧
      (s.env.inbox = [] → step s = .next s) ∧
      ∀ nbits w i, decodeTableWord nbits w = some i → step (s.withFetchWord nbits w) = exec i s

/-! ## Reset -/

/-- 10_state.md R48: the reset values of every register and history, and the sink closed. -/
def Obligations.ResetValuesAreThoseOfTheSpec : Prop :=
  State.reset.phase = .idle ∧ State.reset.cause = .none ∧
    State.reset.errExpect = 0#32 ∧ State.reset.errActual = 0#32 ∧
    State.reset.cfgM = 2#32 ∧ State.reset.cfgFs = 1000000#32 ∧ State.reset.cfgBaud = 940#32 ∧
    State.reset.cfgFc = 2440#32 ∧ State.reset.cfgAngle = 0x42340000#32 ∧
    State.reset.tblRows = 4#32 ∧ State.reset.tblCols = 1064#32 ∧
    State.reset.nsym = 0#32 ∧ State.reset.sps = 0#32 ∧
    State.reset.rxBit = 0 ∧ State.reset.bitsAccum = 0 ∧
    State.reset.out = [] ∧ State.reset.sink = [] ∧ State.reset.syms = [] ∧ State.reset.sinkOpen = false

/-- 70_reset_and_hazards.md R195, R199: RESET, in every phase, leaves the reset state. That it leaves the environment
alone (what is offered, what has been answered) is the model's choice (log 13). -/
def Obligations.ResetRestoresTheResetState : Prop :=
  ∀ s : State, exec .reset s = .next { State.reset with env := s.env }

/-- 70_reset_and_hazards.md R195: reset is the only way out of P_FAULT and the only way back to P_IDLE. -/
def Obligations.OnlyResetLeavesFaultOrReturnsToIdle : Prop :=
  ∀ (i : Instr) (s t : State), exec i s = .next t → i ≠ .reset →
    (s.phase = .fault → t.phase = .fault) ∧ (s.phase ≠ .idle → t.phase ≠ .idle)

/-! ## Faults -/

/-- 60_exceptions.md R180: what fault entry writes, and that it leaves all other state. -/
def Obligations.FaultEntryRecordsTheCause : Prop :=
  ∀ (s : State) (c : Cause) (e a : Word),
    s.raise c e a =
      { s with
        cause := c
        errExpect := e
        errActual := a
        sinkOpen := (if s.phase = .run then false else s.sinkOpen)
        phase := .fault }

/-- 60_exceptions.md R182, 30_encoding.md R78: in P_FAULT every operation but RDREG and RESET is without effect, RDREG
works as always (40_register_access.md R91), and reset leaves P_FAULT (70_reset_and_hazards.md R195). That a read is
appended to env.reads (log 8), that an EMIT on its own is among the operations without effect (log 11: R78 lists it,
R182 does not) and that reset leaves the environment alone (log 13) are the model's choices. -/
def Obligations.NothingRunsAfterAFaultButReadsAndReset : Prop :=
  ∀ (i : Instr) (s : State), s.phase = .fault →
    match i with
    | .rdreg n _ => exec i s = .next (s.returnToHost (readRegister s n))
    | .reset => exec i s = .next { State.reset with env := s.env }
    | _ => exec i s = .next s

/-- 10_state.md R23 and 60_exceptions.md R183: the fault record is written by fault entry and reset alone, and a second
fault is never recorded. -/
def Obligations.FaultRecordDescribesTheFirstFault : Prop :=
  ∀ (i : Instr) (s t : State), exec i s = .next t → i ≠ .reset →
    (t.cause = s.cause ∧ t.errExpect = s.errExpect ∧ t.errActual = s.errActual) ∨
      (s.phase ≠ .fault ∧ t.phase = .fault)

/-- 60_exceptions.md R178: an operation in a phase other than the one it needs, and other than P_FAULT, raises E_SEQ
with the code of the needed phase (for OPEN that of P_READY) and the code of PHASE, and does nothing else. -/
def Obligations.WrongPhaseRaisesSequenceFault : Prop :=
  ∀ s : State, s.phase ≠ .fault →
    (s.phase ≠ .idle → ∀ d : Word,
      exec (.wrregCfgM d) s = .next (s.raise .seq 0#32 (phaseWord s.phase)) ∧
      exec (.wrregCfgFs d) s = .next (s.raise .seq 0#32 (phaseWord s.phase)) ∧
      exec (.wrregCfgBaud d) s = .next (s.raise .seq 0#32 (phaseWord s.phase)) ∧
      exec (.wrregCfgFc d) s = .next (s.raise .seq 0#32 (phaseWord s.phase)) ∧
      exec (.wrregCfgAngle d) s = .next (s.raise .seq 0#32 (phaseWord s.phase)) ∧
      exec (.wrregTblRows d) s = .next (s.raise .seq 0#32 (phaseWord s.phase)) ∧
      exec (.wrregTblCols d) s = .next (s.raise .seq 0#32 (phaseWord s.phase))) ∧
    (s.phase ≠ .idle → exec .bcon s = .next (s.raise .seq 0#32 (phaseWord s.phase))) ∧
    (s.phase ≠ .const → exec .btab s = .next (s.raise .seq 1#32 (phaseWord s.phase))) ∧
    (s.phase ≠ .ready → s.phase ≠ .done →
      exec .openSession s = .next (s.raise .seq 2#32 (phaseWord s.phase))) ∧
    (s.phase ≠ .run → exec .eoi s = .next (s.raise .seq 3#32 (phaseWord s.phase))) ∧
    (s.phase ≠ .run → ∀ b : Byte, exec (.push b) s = .next (s.raise .seq 3#32 (phaseWord s.phase)))

/-- 30_encoding.md R78's row for EMIT; that it stands for an EMIT on its own, which nobody issues, is the model's
reading (log 11). -/
def Obligations.EmitOutsideASessionRaisesSequenceFault : Prop :=
  ∀ (s : State) (idx : BitVec Config.mMax), s.phase ≠ .fault → s.phase ≠ .run →
    exec (.emit idx) s = .next (s.raise .seq 3#32 (phaseWord s.phase))

/-- 60_exceptions.md R179: an undefined command and a write of a read-only or reserved register raise E_CMD with the
register number and the data, in every phase but P_FAULT. -/
def Obligations.IllegalWritesRaiseCommandFault : Prop :=
  ∀ (s : State) (d : Word), s.phase ≠ .fault →
    exec (.cmdUndef d) s = .next (s.raise .cmd 0#32 d) ∧
    exec (.illegalStatus d) s = .next (s.raise .cmd 1#32 d) ∧
    exec (.illegalErrExpect d) s = .next (s.raise .cmd 2#32 d) ∧
    exec (.illegalErrActual d) s = .next (s.raise .cmd 3#32 d) ∧
    exec (.illegalNsym d) s = .next (s.raise .cmd 11#32 d) ∧
    exec (.illegalSps d) s = .next (s.raise .cmd 12#32 d) ∧
    exec (.illegalRxbit d) s = .next (s.raise .cmd 13#32 d) ∧
    exec (.illegalBitsacc d) s = .next (s.raise .cmd 14#32 d) ∧
    exec (.illegalReserved15 d) s = .next (s.raise .cmd 15#32 d)

/-! ## Host register access -/

/-- 10_state.md R24 and 40_register_access.md R91: RDREG n completes in every phase, returns register n to the host
(0 for CMD and for register 15) and changes nothing else. -/
def Obligations.ReadReturnsTheRegisterAndChangesNothing : Prop :=
  ∀ (s : State) (n : BitVec 4) (d : Word), ∃ v : Word,
    [0#32, statusWord s, s.errExpect, s.errActual, s.cfgM, s.cfgFs, s.cfgBaud, s.cfgFc, s.cfgAngle, s.tblRows,
      s.tblCols, s.nsym, s.sps, s.rxBit.setWidth 32, s.bitsAccum.setWidth 32, 0#32][n.toNat]? = some v ∧
    exec (.rdreg n d) s = .next { s with env := { s.env with reads := s.env.reads ++ [v] } }

/-- 10_state.md R26: the layout of STATUS, with the six codes of PHASE (R22) and the nine of FAULT (60_exceptions.md
R171). That no other code can be held is the model's reading (log 15). -/
def Obligations.StatusHoldsPhaseAndFault : Prop :=
  ∀ s : State,
    (statusWord s).extractLsb' 0 3 = phaseCode s.phase ∧ (statusWord s).getLsbD 3 = false ∧
    (statusWord s).extractLsb' 4 4 = causeCode s.cause ∧ (statusWord s).extractLsb' 8 24 = 0#24 ∧
    statusWord State.reset = 0#32 ∧
    phaseCode .idle = 0#3 ∧ phaseCode .const = 1#3 ∧ phaseCode .ready = 2#3 ∧ phaseCode .run = 3#3 ∧
    phaseCode .done = 4#3 ∧ phaseCode .fault = 7#3 ∧
    causeCode .none = 0#4 ∧ causeCode .cfgM = 1#4 ∧ causeCode .cfgDim = 2#4 ∧ causeCode .cfgRate = 3#4 ∧
    causeCode .cfgAngle = 4#4 ∧ causeCode .ioOpen = 5#4 ∧ causeCode .ioShort = 6#4 ∧ causeCode .seq = 7#4 ∧
    causeCode .cmd = 8#4

/-- 40_register_access.md R90, R93: in P_IDLE a write of a configuration register stores all 32 bits of the data,
whatever they are, and changes nothing else. -/
def Obligations.ConfigWriteStoresTheData : Prop :=
  ∀ (s : State) (d : Word), s.phase = .idle →
    exec (.wrregCfgM d) s = .next { s with cfgM := d } ∧
    exec (.wrregCfgFs d) s = .next { s with cfgFs := d } ∧
    exec (.wrregCfgBaud d) s = .next { s with cfgBaud := d } ∧
    exec (.wrregCfgFc d) s = .next { s with cfgFc := d } ∧
    exec (.wrregCfgAngle d) s = .next { s with cfgAngle := d } ∧
    exec (.wrregTblRows d) s = .next { s with tblRows := d } ∧
    exec (.wrregTblCols d) s = .next { s with tblCols := d }

/-! ## The constellation -/

/-- 41_constellation.md R101, R103: BCON with a legal configuration writes symbol k, magnitude 1.0 and angle
`Num.angle(a0, k, M)`, for every k below `2^M`, sets NSYM and PHASE, and changes no other entry and nothing else. -/
def Obligations.BconBuildsTheConstellation : Prop :=
  ∀ s : State, s.phase = .idle → 1 ≤ s.cfgM.toNat → s.cfgM.toNat ≤ Config.mMax →
    isFinite (dec32 s.cfgAngle) = true →
    ∃ t : State, exec .bcon s = .next t ∧
      t = { s with const := t.const, nsym := t.nsym, phase := .const } ∧
      t.nsym.toNat = 2 ^ s.cfgM.toNat ∧ enc32 one32 = 0x3F800000#32 ∧
      (∀ k, k < 2 ^ s.cfgM.toNat →
        constAt t k = some ⟨one32, Config.num.angle (dec32 s.cfgAngle) k s.cfgM.toNat⟩) ∧
      ∀ k, 2 ^ s.cfgM.toNat ≤ k → constAt t k = constAt s k

/-- 60_exceptions.md R172, R175 and R184: BCON rejects M = 0 and M above `M_MAX` with E_CFG_M, and then an initial
angle that is not finite with E_CFG_ANGLE; nothing of CONST or NSYM has been written. -/
def Obligations.BconRejectsIllegalConfiguration : Prop :=
  ∀ s : State, s.phase = .idle →
    (s.cfgM.toNat = 0 ∨ Config.mMax < s.cfgM.toNat →
      exec .bcon s = .next (s.raise .cfgM (BitVec.ofNat 32 Config.mMax) s.cfgM)) ∧
    (1 ≤ s.cfgM.toNat → s.cfgM.toNat ≤ Config.mMax → (dec32 s.cfgAngle).exp = 255#8 →
      exec .bcon s = .next (s.raise .cfgAngle 0#32 s.cfgAngle))

/-- 41_constellation.md R105, R106 and vectors B1 to B7, B13 of 95_test_vectors.md: under any numerics with property
(c) of 00_scope.md R12 the angles are these, pattern and value, with no wrap-around. (The patterns that the spec does not
print follow from the values by R15; those of B6 are left to symbol 63.) -/
def Obligations.WorkedConstellationsHaveTheirAngles : Prop :=
  ∀ n : Sys2Proof.Num, HasExactSpacing n →
    (constellation n (dec32 0x42340000#32) 2).map (fun c => (enc32 c.ang, floatValue c.ang)) =
      [(0x42340000#32, 45), (0x43070000#32, 135), (0x43610000#32, 225), (0x439D8000#32, 315)] ∧
    (constellation n (dec32 0x00000000#32) 1).map (fun c => (enc32 c.ang, floatValue c.ang)) =
      [(0x00000000#32, 0), (0x43340000#32, 180)] ∧
    (constellation n (dec32 0x42340000#32) 1).map (fun c => (enc32 c.ang, floatValue c.ang)) =
      [(0x42340000#32, 45), (0x43610000#32, 225)] ∧
    (constellation n (dec32 0x00000000#32) 3).map (fun c => (enc32 c.ang, floatValue c.ang)) =
      [(0x00000000#32, 0), (0x42340000#32, 45), (0x42B40000#32, 90), (0x43070000#32, 135), (0x43340000#32, 180),
        (0x43610000#32, 225), (0x43870000#32, 270), (0x439D8000#32, 315)] ∧
    (constellation n (dec32 0x41B40000#32) 3).map (fun c => (enc32 c.ang, floatValue c.ang)) =
      [(0x41B40000#32, 22.5), (0x42870000#32, 67.5), (0x42E10000#32, 112.5), (0x431D8000#32, 157.5),
        (0x434A8000#32, 202.5), (0x43778000#32, 247.5), (0x43924000#32, 292.5), (0x43A8C000#32, 337.5)] ∧
    (constellation n (dec32 0x43AF0000#32) 2).map (fun c => (enc32 c.ang, floatValue c.ang)) =
      [(0x43AF0000#32, 350), (0x43DC0000#32, 440), (0x44048000#32, 530), (0x441B0000#32, 620)] ∧
    (constellation n (dec32 0xC2340000#32) 2).map (fun c => (enc32 c.ang, floatValue c.ang)) =
      [(0xC2340000#32, -45), (0x42340000#32, 45), (0x43070000#32, 135), (0x43610000#32, 225)] ∧
    (constellation n (dec32 0x00000000#32) 2).map (fun c => (enc32 c.ang, floatValue c.ang)) =
      [(0x00000000#32, 0), (0x42B40000#32, 90), (0x43340000#32, 180), (0x43870000#32, 270)] ∧
    (constellation n (dec32 0x42340000#32) 6).map (fun c => floatValue c.ang) =
      (List.range 64).map (fun k : Nat => 45 + 5.625 * (k : ℚ)) ∧
    (constellation n (dec32 0x42340000#32) 6)[63]?.map (fun c => (enc32 c.ang, floatValue c.ang)) =
      some (0x43C7B000#32, 399.375)

/-- 00_scope.md R12 (c), 41_constellation.md R104: exactly `2^M` symbols of magnitude 1.0, and a spacing of exactly
`360 / 2^M` wherever two neighbouring ideal angles are values of floats. -/
def Obligations.NeighbouringSymbolsAreExactlySpaced : Prop :=
  ∀ (n : Sys2Proof.Num) (a0 : F32) (m : Nat), HasExactSpacing n → isFinite a0 = true →
    (constellation n a0 m).length = 2 ^ m ∧
    (∀ c ∈ constellation n a0 m, floatValue c.mag = 1) ∧
    ∀ k f g, k + 1 < 2 ^ m → isFinite f = true → isFinite g = true →
      floatValue f = idealAngle a0 k m → floatValue g = idealAngle a0 (k + 1) m →
      ∃ c d, (constellation n a0 m)[k]? = some c ∧ (constellation n a0 m)[k + 1]? = some d ∧
        floatValue d.ang - floatValue c.ang = 360 / 2 ^ m

/-! ## Numerics -/

/-- 00_scope.md R11, R12 (c): the nearest float to a number that is the value of a float has that value. -/
def Obligations.NearestToARepresentableNumberIsExact : Prop :=
  ∀ (x : ℝ) (f g : F32), IsNearest x f → isFinite g = true → (floatValue g : ℝ) = x →
    floatValue f = floatValue g

/-- 00_scope.md R12 (b): a pair (cos t, sin t) rounded as `Num_ref` rounds it has magnitude 1 within 2^-23. -/
def Obligations.ReferencePolarHasUnitMagnitude : Prop :=
  ∀ (t : ℝ) (c : C32), IsNearestPair (Real.cos t) (Real.sin t) c →
    |Real.sqrt ((floatValue c.re : ℝ) ^ 2 + (floatValue c.im : ℝ) ^ 2) - 1| ≤ 1 / 2 ^ 23

/-- 00_scope.md R10, R11, R12 (b): `Num_ref` has unit magnitude within 2^-23, the EPS_MAG that the spec derives for it.
(`Num_ref` is given as a property: log 3.) -/
def Obligations.ReferenceNumericsHaveUnitMagnitude : Prop :=
  ∀ n : Sys2Proof.Num, IsReference n → HasUnitMagnitude n (1 / 2 ^ 23)

/-- 00_scope.md R10, R11, R12 (c): `Num_ref` has exact spacing where representable. (`Num_ref` is given as a property:
log 3; that the float of an angle 0 is +0.0 is R11 and log 16.) -/
def Obligations.ReferenceNumericsHaveExactSpacing : Prop :=
  ∀ n : Sys2Proof.Num, IsReference n → HasExactSpacing n

/-- 42_waveform_table.md R116: the product of `Num_ref` is commutative bit for bit. That `Num_ref` rounds by one function
of the ideal number, and what is left where an argument is not finite, are the model's reading (log 3). -/
def Obligations.ReferenceProductIsCommutative : Prop :=
  ∀ n : Sys2Proof.Num, IsReference n → ∀ a b : C32, n.cmul a b = n.cmul b a

/-- 00_scope.md R15: `enc32` and `dec32` are inverse to each other, for every pattern. -/
def Obligations.FloatPatternsRoundTrip : Prop :=
  (∀ w : Word, enc32 (dec32 w) = w) ∧ ∀ f : F32, dec32 (enc32 f) = f

/-! ## The waveform table -/

/-- 00_scope.md R13, 42_waveform_table.md R112: `ceil(a / b)` is the least integer not less than the quotient. -/
def Obligations.SamplesPerSymbolIsTheLeastIntegerNotBelowTheQuotient : Prop :=
  ∀ a b : Nat, 0 < b → a ≤ ceilDiv a b * b ∧ ∀ m, a ≤ m * b → ceilDiv a b ≤ m

/-- 42_waveform_table.md R111, R112, R114, R116: BTAB with a legal configuration and the constellation written fills
the template and NSYM rows of SPS entries with their formulas, sets SPS and PHASE, and changes no other entry and
nothing else. -/
def Obligations.BtabBuildsTemplateAndTable : Prop :=
  ∀ (s : State) (n : Nat) (c : Nat → Symbol), s.phase = .const → s.cfgFs ≠ 0#32 → s.cfgBaud ≠ 0#32 →
    n = ceilDiv s.cfgFs.toNat s.cfgBaud.toNat → n ≤ Config.spsMax → s.tblRows = s.nsym → s.tblCols.toNat = n →
    (∀ r, r < s.nsym.toNat → constAt s r = some (c r)) →
    ∃ t : State, exec .btab s = .next t ∧
      t = { s with tmpl := t.tmpl, tbl := t.tbl, sps := t.sps, phase := .ready } ∧
      t.sps.toNat = n ∧
      (∀ i, i < n → tmplAt t i = some (Config.num.polar one32 (Config.num.cphase s.cfgFc i s.cfgFs))) ∧
      (∀ i, n ≤ i → tmplAt t i = tmplAt s i) ∧
      (∀ r i, r < s.nsym.toNat → i < n →
        tblAt t r i = some (Config.num.cmul (Config.num.polar one32 (Config.num.cphase s.cfgFc i s.cfgFs))
          (Config.num.polar (c r).mag (Config.num.deg2rad (c r).ang)))) ∧
      ∀ r i, s.nsym.toNat ≤ r ∨ n ≤ i → tblAt t r i = tblAt s r i

/-- 42_waveform_table.md R113, 60_exceptions.md R173, R174, R184: what BTAB rejects, in the order in which it checks;
nothing of TMPL, TBL or SPS has been written. -/
def Obligations.BtabRejectsIllegalConfiguration : Prop :=
  ∀ (s : State) (n : Nat), s.phase = .const → n = ceilDiv s.cfgFs.toNat s.cfgBaud.toNat →
    (s.cfgFs = 0#32 → exec .btab s = .next (s.raise .cfgRate 1#32 0#32)) ∧
    (s.cfgFs ≠ 0#32 → s.cfgBaud = 0#32 → exec .btab s = .next (s.raise .cfgRate 2#32 0#32)) ∧
    (s.cfgFs ≠ 0#32 → s.cfgBaud ≠ 0#32 →
      (Config.spsMax < n →
        exec .btab s = .next (s.raise .cfgRate (BitVec.ofNat 32 Config.spsMax) (BitVec.ofNat 32 n)) ∧
          (BitVec.ofNat 32 n).toNat = n) ∧
      (n ≤ Config.spsMax → s.tblRows ≠ s.nsym →
        exec .btab s = .next (s.raise .cfgDim s.nsym s.tblRows)) ∧
      (n ≤ Config.spsMax → s.tblRows = s.nsym → s.tblCols.toNat ≠ n →
        exec .btab s = .next (s.raise .cfgDim (BitVec.ofNat 32 n) s.tblCols)))

/-! ## Sessions -/

/-- 45_session.md R156, R157, R160 and 60_exceptions.md R176: OPEN in P_READY or P_DONE clears the accumulator, OUT and
SYMS; where the sink opens SINK is emptied and PHASE is P_RUN; where it refuses, E_IO_OPEN with 0 and 0. (The sink's
answers are those of log 4; the history of bits is the model's own, log 12.) -/
def Obligations.OpenStartsASessionOrRecordsTheRefusal : Prop :=
  ∀ s : State, s.phase = .ready ∨ s.phase = .done →
    exec .openSession s = .next
      (if s.env.tape.headD (Config.freeDraw s.env.draws) ≠ 0 then
        { s with
          rxBit := 0, bitsAccum := 0, out := [], syms := [], bits := [], sink := [], sinkOpen := true, phase := .run
          env := { s.env with tape := s.env.tape.tail, draws := s.env.draws + 1 } }
      else
        { s with
          rxBit := 0, bitsAccum := 0, out := [], syms := [], bits := []
          cause := .ioOpen, errExpect := 0#32, errActual := 0#32, phase := .fault
          env := { s.env with tape := s.env.tape.tail, draws := s.env.draws + 1 } })

/-- 45_session.md R158, R159, R163: EOI drops a partial symbol, closes the sink, ends the session and keeps the
histories. -/
def Obligations.EndOfInputDropsThePartialSymbol : Prop :=
  ∀ s : State, s.phase = .run →
    exec .eoi s = .next { s with rxBit := 0, bitsAccum := 0, sinkOpen := false, phase := .done }

/-- 43_bit_accumulator.md R126, R128, R132: a PUSH that does not complete a symbol doubles rxBit, adds the data bit,
keeps the low M bits, counts one bit, and changes nothing else. (That M above `M_MAX`, which no run reaches, counts as
`M_MAX` is the model's choice, log 14; the history of bits is its own, log 12.) -/
def Obligations.PushShiftsOneBitIn : Prop :=
  ∀ (s : State) (b : Byte), s.phase = .run → (s.bitsAccum + 1).toNat ≠ s.cfgM.toNat →
    ∃ t : State, exec (.push b) s = .next t ∧
      t = { s with rxBit := t.rxBit, bitsAccum := s.bitsAccum + 1, bits := s.bits ++ [b.extractLsb' 0 1] } ∧
      t.rxBit.toNat = (2 * s.rxBit.toNat + b.toNat % 2) % 2 ^ min s.cfgM.toNat Config.mMax

/-- 43_bit_accumulator.md R126, R129, 44_sample_emitter.md R141, R152, 45_session.md R162, 60_exceptions.md R177: a PUSH
that completes a symbol emits the row of its index. Where the sink takes the whole burst the accumulator is then
cleared; where it takes less, E_IO_SHORT is raised with the accumulator, OUT and SYMS as they stand and SINK with what
was taken. (The sink's answers are those of log 4; values that no run reaches wrap as log 14 says; the history of bits is
the model's own, log 12.) -/
def Obligations.PushEmitsTheCompletedSymbol : Prop :=
  ∀ (s : State) (b : Byte) (idx : BitVec Config.mMax) (row : List C32) (acc : Nat),
    s.phase = .run → (s.bitsAccum + 1).toNat = s.cfgM.toNat →
    idx.toNat = (2 * s.rxBit.toNat + b.toNat % 2) % 2 ^ min s.cfgM.toNat Config.mMax →
    row.length = s.sps.toNat → (∀ i, i < s.sps.toNat → tblAt s idx.toNat i = row[i]?) →
    acc = min (s.env.tape.headD (Config.freeDraw s.env.draws)) (8 * s.sps.toNat) →
    exec (.push b) s = .next
      (if acc = 8 * s.sps.toNat then
        { s with
          rxBit := 0, bitsAccum := 0, bits := s.bits ++ [b.extractLsb' 0 1]
          out := s.out ++ row, syms := s.syms ++ [idx], sink := s.sink ++ ser row
          env := { s.env with tape := s.env.tape.tail, draws := s.env.draws + 1 } }
      else
        { s with
          rxBit := idx, bitsAccum := s.bitsAccum + 1, bits := s.bits ++ [b.extractLsb' 0 1]
          out := s.out ++ row, syms := s.syms ++ [idx], sink := s.sink ++ (ser row).take acc
          cause := .ioShort, errExpect := BitVec.ofNat 32 (8 * s.sps.toNat), errActual := BitVec.ofNat 32 acc
          sinkOpen := false, phase := .fault
          env := { s.env with tape := s.env.tape.tail, draws := s.env.draws + 1 } })

/-- 44_sample_emitter.md R141, R143 to R145, R152, 45_session.md R162: EMIT idx appends the row and the index and hands
one burst to the sink; a short write faults. (The sink's answers are those of log 4, an EMIT on its own that of log 11, and
values that no run reaches wrap as log 14 says.) -/
def Obligations.EmitAppendsTheRowOfTheIndex : Prop :=
  ∀ (s : State) (idx : BitVec Config.mMax) (row : List C32) (acc : Nat), s.phase = .run →
    row.length = s.sps.toNat → (∀ i, i < s.sps.toNat → tblAt s idx.toNat i = row[i]?) →
    acc = min (s.env.tape.headD (Config.freeDraw s.env.draws)) (8 * s.sps.toNat) →
    exec (.emit idx) s = .next
      (if acc = 8 * s.sps.toNat then
        { s with
          out := s.out ++ row, syms := s.syms ++ [idx], sink := s.sink ++ ser row
          env := { s.env with tape := s.env.tape.tail, draws := s.env.draws + 1 } }
      else
        { s with
          out := s.out ++ row, syms := s.syms ++ [idx], sink := s.sink ++ (ser row).take acc
          cause := .ioShort, errExpect := BitVec.ofNat 32 (8 * s.sps.toNat), errActual := BitVec.ofNat 32 acc
          sinkOpen := false, phase := .fault
          env := { s.env with tape := s.env.tape.tail, draws := s.env.draws + 1 } })

/-- 30_encoding.md R76, 43_bit_accumulator.md R130: the first bit is the most significant. -/
def Obligations.FirstBitIsTheMostSignificant : Prop :=
  ∀ bits : List (BitVec 1),
    bitsValue bits =
      ((List.range bits.length).map fun j => (bits.getD j 0).toNat * 2 ^ (bits.length - 1 - j)).sum

/-- 43_bit_accumulator.md R131: in P_RUN the count is below M, rxBit is below `2^bitsAccum`, and the mask changes
nothing. -/
def Obligations.AccumulatorStaysBelowItsCount : Prop :=
  ∀ s : State, Sound s → s.phase = .run →
    s.bitsAccum.toNat ≤ s.cfgM.toNat - 1 ∧ s.rxBit.toNat < 2 ^ s.bitsAccum.toNat ∧
      ∀ b : BitVec 1, (s.shiftIn b).rxBit.toNat = 2 * s.rxBit.toNat + b.toNat

/-! ## Serialisation -/

/-- 20_memory.md R55, R56, 44_sample_emitter.md R146, R147: I then Q, each least significant byte first, every pattern
as it is. -/
def Obligations.SampleBytesAreLittleEndianInPhaseFirst : Prop :=
  (∀ c : C32, serSample c =
    [(enc32 c.re).extractLsb' 0 8, (enc32 c.re).extractLsb' 8 8, (enc32 c.re).extractLsb' 16 8,
      (enc32 c.re).extractLsb' 24 8, (enc32 c.im).extractLsb' 0 8, (enc32 c.im).extractLsb' 8 8,
      (enc32 c.im).extractLsb' 16 8, (enc32 c.im).extractLsb' 24 8]) ∧
    serSample ⟨dec32 0xBF800000#32, dec32 0x80000000#32⟩ =
      [0x00#8, 0x00#8, 0x80#8, 0xBF#8, 0x00#8, 0x00#8, 0x00#8, 0x80#8]

/-- 44_sample_emitter.md R148, R149: N samples are exactly 8N bytes, and reading them back gives the samples bit for
bit, also when a part of another sample follows. -/
def Obligations.SerialisedSamplesReadBackExactly : Prop :=
  ∀ (l : List C32) (rest : List Byte), rest.length < 8 →
    (ser l).length = 8 * l.length ∧ deser (ser l ++ rest) = l

/-! ## The whole machine -/

/-- 10_state.md R48 and R49: the reset state is sound, whatever stands in the environment. -/
def Obligations.ResetStateIsSound : Prop :=
  ∀ e : Env, Sound { State.reset with env := e }

/-- 10_state.md R44, R45, R47, R49, 43_bit_accumulator.md R131: every step of a sound state leaves a sound state. -/
def Obligations.StepKeepsTheInvariant : Prop :=
  ∀ s t : State, Sound s → step s = .next t → Sound t

/-- 70_reset_and_hazards.md R197, R201, R205: in a sound state no step stops: no operation reads an entry that has not
been written, and none is refused. -/
def Obligations.SoundStatesAlwaysGoOn : Prop :=
  ∀ s : State, Sound s → GoesOn (step s)

/-- Every run from reset, whatever operations are offered and whatever the sink answers, goes on for ever through sound
states (10_state.md R49, 70_reset_and_hazards.md R197). -/
def Obligations.EveryRunFromResetStaysSound : Prop :=
  ∀ (e : Env) (k : Nat), ∃ t : State,
    Host.Core.run Sys2Proof.core k { State.reset with env := e } = .next t ∧ Sound t

/-- 45_session.md R165, 70_reset_and_hazards.md R209: what a sound state holds when a run has ended: with M = CFG_M and
the bits taken in the session, SYMS, OUT and SINK are those of the rule and the accumulator is clear. -/
def Obligations.EndedSessionHoldsItsResult : Prop :=
  ∀ (s : State) (m q : Nat), Sound s → Ended s → m = s.cfgM.toNat → q = s.bits.length / m →
    s.cause = .none ∧ s.rxBit = 0 ∧ s.bitsAccum = 0 ∧ s.syms.length = q ∧
    (∀ t, t < q → ∃ x, s.syms[t]? = some x ∧
      x.toNat = ((List.range m).map fun j => (s.bits.getD (t * m + j) 0).toNat * 2 ^ (m - 1 - j)).sum ∧
      ∀ i, i < s.sps.toNat → s.out[t * s.sps.toNat + i]? = tblAt s x.toNat i) ∧
    s.out.length = q * s.sps.toNat ∧ s.sink = ser s.out ∧ s.sink.length = 8 * q * s.sps.toNat

/-- 45_session.md R161, R165, 70_reset_and_hazards.md R201: a whole session from a sound state in P_READY or P_DONE, OPEN, one PUSH for each byte of
`ys`, EOI, whatever the sink answers. Where no fault is taken, SYMS, OUT and SINK are those of the rule, the accumulator
is clear and PHASE is P_DONE; and no fault is taken where the sink opens and takes every burst whole (`SinkOK`). The
session is offered through env.inbox (log 5) and the sink answers through env.tape (log 4): the model's choices. -/
def Obligations.WholeSessionGivesItsResult : Prop :=
  ∀ (s : State) (e : Env) (ys : List Byte) (m q : Nat), Sound s → s.phase = .ready ∨ s.phase = .done →
    m = s.cfgM.toNat → q = ys.length / m →
    e.inbox = .reg (packReg 1#1 0#4 3#32) :: (ys.map Packet.in8 ++ [.reg (packReg 1#1 0#4 4#32)]) →
    ∃ t : State, Host.Core.run Sys2Proof.core (ys.length + 2) { s with env := e } = .next t ∧
      (t.cause = .none →
        t.phase = .done ∧ t.rxBit = 0 ∧ t.bitsAccum = 0 ∧ t.syms.length = q ∧
        (∀ k, k < q → ∃ x, t.syms[k]? = some x ∧
          x.toNat = ((List.range m).map fun j => (ys.getD (k * m + j) 0).toNat % 2 * 2 ^ (m - 1 - j)).sum ∧
          ∀ i, i < s.sps.toNat → t.out[k * s.sps.toNat + i]? = tblAt s x.toNat i) ∧
        t.out.length = q * s.sps.toNat ∧ t.sink = ser t.out ∧ t.sink.length = 8 * q * s.sps.toNat) ∧
      ∀ (a : Nat) (bursts rest : List Nat), e.tape = a :: (bursts ++ rest) → a ≠ 0 → bursts.length = q →
        (∀ x ∈ bursts, 8 * s.sps.toNat ≤ x) → t.cause = .none

/-- 70_reset_and_hazards.md R200, R201: from reset, writing any legal configuration with the table pre-sized to it, then
BCON and BTAB, reaches P_READY in a sound state with that configuration, and takes no fault. -/
def Obligations.StartUpWithALegalConfigurationIsReady : Prop :=
  ∀ (m fs baud fc angle rows cols : Word), 1 ≤ m.toNat → m.toNat ≤ Config.mMax → isFinite (dec32 angle) = true →
    fs ≠ 0#32 → baud ≠ 0#32 → ceilDiv fs.toNat baud.toNat ≤ Config.spsMax →
    rows.toNat = 2 ^ m.toNat → cols.toNat = ceilDiv fs.toNat baud.toNat →
    ∃ t : State,
      Host.Core.run Sys2Proof.core 9
        { State.reset with env := { Env.quiet with inbox :=
          [.reg (packReg 1#1 4#4 m), .reg (packReg 1#1 5#4 fs), .reg (packReg 1#1 6#4 baud),
            .reg (packReg 1#1 7#4 fc), .reg (packReg 1#1 8#4 angle), .reg (packReg 1#1 9#4 rows),
            .reg (packReg 1#1 10#4 cols), .reg (packReg 1#1 0#4 1#32), .reg (packReg 1#1 0#4 2#32)] } } = .next t ∧
      Sound t ∧ t.phase = .ready ∧ t.cause = .none ∧ t.cfgM = m ∧ t.cfgFs = fs ∧ t.cfgBaud = baud ∧ t.cfgFc = fc ∧
      t.cfgAngle = angle ∧ t.tblRows = rows ∧ t.tblCols = cols ∧ t.nsym = rows ∧ t.sps = cols

/-- 70_reset_and_hazards.md R196: with the configuration that reset leaves, BCON, BTAB and OPEN run without a fault where
the sink opens, to a session with 4 symbols of 1064 samples each. (That every `M_MAX` and `SPS_MAX` admits this
configuration is DEDUCED: log 1; the sink's answer is that of log 4, the offering that of log 5.) -/
def Obligations.ResetConfigurationReachesASession : Prop :=
  ∀ (e : Env) (a : Nat) (rest : List Nat),
    e.inbox = [.reg (packReg 1#1 0#4 1#32), .reg (packReg 1#1 0#4 2#32), .reg (packReg 1#1 0#4 3#32)] →
    e.tape = a :: rest → a ≠ 0 →
    ∃ t : State, Host.Core.run Sys2Proof.core 3 { State.reset with env := e } = .next t ∧
      Sound t ∧ t.phase = .run ∧ t.cause = .none ∧ t.nsym = 4#32 ∧ t.sps = 1064#32

/-- 45_session.md R157, R164: what a session has emitted depends only on the configuration the table was built from and
on the bits taken in that session. -/
def Obligations.SessionOutputDependsOnlyOnTableAndBits : Prop :=
  ∀ s t : State, Sound s → Sound t → s.phase = .run ∨ s.phase = .done → t.phase = .run ∨ t.phase = .done →
    s.cfgM = t.cfgM → s.cfgFs = t.cfgFs → s.cfgBaud = t.cfgBaud → s.cfgFc = t.cfgFc → s.cfgAngle = t.cfgAngle →
    s.bits = t.bits → s.syms = t.syms ∧ s.out = t.out ∧ s.sink = t.sink

/-- 10_state.md R49 (e), 20_memory.md R65: in a session and after it, short of reset, no operation changes the
configuration, NSYM, SPS, CONST, TMPL or TBL. -/
def Obligations.NothingThatSteersASessionChanges : Prop :=
  ∀ (i : Instr) (s t : State), exec i s = .next t → i ≠ .reset → s.phase = .run ∨ s.phase = .done →
    t.cfgM = s.cfgM ∧ t.cfgFs = s.cfgFs ∧ t.cfgBaud = s.cfgBaud ∧ t.cfgFc = s.cfgFc ∧ t.cfgAngle = s.cfgAngle ∧
    t.tblRows = s.tblRows ∧ t.tblCols = s.tblCols ∧ t.nsym = s.nsym ∧ t.sps = s.sps ∧
    t.const = s.const ∧ t.tmpl = s.tmpl ∧ t.tbl = s.tbl

/-- 30_encoding.md R78: an operation that completes without a fault leaves the phase the table gives. -/
def Obligations.OperationsLeaveThePhaseOfTheTable : Prop :=
  ∀ (i : Instr) (s t : State), exec i s = .next t → t.phase ≠ .fault →
    match i with
    | .bcon => s.phase = .idle ∧ t.phase = .const
    | .btab => s.phase = .const ∧ t.phase = .ready
    | .openSession => (s.phase = .ready ∨ s.phase = .done) ∧ t.phase = .run
    | .eoi => s.phase = .run ∧ t.phase = .done
    | .push _ => s.phase = .run ∧ t.phase = .run
    | .emit _ => s.phase = .run ∧ t.phase = .run
    | .rdreg _ _ => t.phase = s.phase
    | .reset => t.phase = .idle
    | .wrregCfgM _ | .wrregCfgFs _ | .wrregCfgBaud _ | .wrregCfgFc _ | .wrregCfgAngle _ | .wrregTblRows _
    | .wrregTblCols _ => s.phase = .idle ∧ t.phase = .idle
    | _ => False

/-- 10_state.md R34, R35, R40 to R45: which operation may change NSYM and CONST (BCON), SPS, TMPL and TBL (BTAB), and
the histories: PUSH and EMIT append to them, OPEN empties them, nothing else but reset touches them. -/
def Obligations.BuiltStateAndHistoriesHaveTheirOnlyWriters : Prop :=
  ∀ (i : Instr) (s t : State), exec i s = .next t → i ≠ .reset →
    (i ≠ .bcon → t.nsym = s.nsym ∧ t.const = s.const) ∧
    (i ≠ .btab → t.sps = s.sps ∧ t.tmpl = s.tmpl ∧ t.tbl = s.tbl) ∧
    (i ≠ .openSession → s.out <+: t.out ∧ s.sink <+: t.sink ∧ s.syms <+: t.syms) ∧
    (i ≠ .openSession → (∀ b, i ≠ .push b) → (∀ x, i ≠ .emit x) →
      t.out = s.out ∧ t.sink = s.sink ∧ t.syms = s.syms)
end

