-- ==== Sys2Proof/Laws/Config.lean ====
section
/-! SUPPORT. The bounds of the parameters `M_MAX` and `SPS_MAX` (00_scope.md R9; log 1): all that may be assumed of
them. -/

namespace Sys2Proof.Config

theorem two_le_mMax : 2 ≤ mMax := by unfold mMax; omega

theorem mMax_le : mMax ≤ 31 := by
  have := mMaxSpare.isLt
  unfold mMax
  omega

theorem spsMax_ge : 1064 ≤ spsMax := by unfold spsMax; omega

theorem spsMax_lt : spsMax < 2 ^ 29 := by
  have h : ∀ n : Nat, n < 536869848 → n + 1064 < 2 ^ 29 := fun n hn => by omega
  exact h _ spsMaxSpare.isLt

/-- A register of `widthFor n` bits holds `n`. -/
theorem lt_two_pow_widthFor (n : Nat) : n < 2 ^ widthFor n := Nat.lt_log2_self

/-- bitsAccum can hold `M_MAX`. -/
theorem mMax_lt_two_pow_countBits : mMax < 2 ^ countBits := lt_two_pow_widthFor mMax

/-- `2^M` for a legal M fits in NSYM. -/
theorem two_pow_lt {m : Nat} (h : m ≤ mMax) : 2 ^ m < 2 ^ 32 :=
  Nat.pow_lt_pow_right (by omega) (by have := mMax_le; omega)

/-- `2^M` for a legal M reads back from NSYM. -/
theorem toNat_ofNat_two_pow {m : Nat} (h : m ≤ mMax) : (BitVec.ofNat 32 (2 ^ m)).toNat = 2 ^ m :=
  (BitVec.toNat_ofNat ..).trans (Nat.mod_eq_of_lt (two_pow_lt h))

/-- A legal number of samples reads back from SPS. -/
theorem toNat_ofNat_sps {n : Nat} (h : n ≤ spsMax) : (BitVec.ofNat 32 n).toNat = n :=
  (BitVec.toNat_ofNat ..).trans (Nat.mod_eq_of_lt (by have := spsMax_lt; omega))

/-- Counting one more bit does not wrap below `M_MAX`. -/
theorem toNat_count_add_one {c : BitVec countBits} (h : c.toNat < mMax) : (c + 1).toNat = c.toNat + 1 := by
  have h1 := mMax_lt_two_pow_countBits
  have h2 := two_le_mMax
  have h3 : (1 : BitVec countBits).toNat = 1 := (BitVec.toNat_ofNat ..).trans (Nat.mod_eq_of_lt (Nat.lt_trans h2 h1))
  rw [BitVec.toNat_add, h3]
  exact Nat.mod_eq_of_lt (by omega)

end Sys2Proof.Config
end

