-- ==== Sys2Proof/Laws/Encoding.lean ====
section
/-! SUPPORT. Laws of the encodings: the fields of a REG access, float patterns, the bytes of a sample. -/

namespace Sys2Proof

/-! ### The fields of a REG access -/

@[simp] theorem fieldW_packReg (w : BitVec 1) (n : BitVec 4) (d : Word) : fieldW (packReg w n d) = w := by
  apply BitVec.eq_of_getElem_eq
  intro i hi
  simp only [fieldW, packReg, ← BitVec.getLsbD_eq_getElem]
  grind

@[simp] theorem fieldN_packReg (w : BitVec 1) (n : BitVec 4) (d : Word) : fieldN (packReg w n d) = n := by
  apply BitVec.eq_of_getElem_eq
  intro i hi
  simp only [fieldN, packReg, ← BitVec.getLsbD_eq_getElem]
  grind

@[simp] theorem fieldD_packReg (w : BitVec 1) (n : BitVec 4) (d : Word) : fieldD (packReg w n d) = d := by
  apply BitVec.eq_of_getElem_eq
  intro i hi
  simp only [fieldD, packReg, ← BitVec.getLsbD_eq_getElem]
  grind

/-- A REG access is its three fields. -/
theorem packReg_fields (w : BitVec 37) : packReg (fieldW w) (fieldN w) (fieldD w) = w := by
  apply BitVec.eq_of_getElem_eq
  intro i hi
  simp only [fieldW, fieldN, fieldD, packReg, ← BitVec.getLsbD_eq_getElem, BitVec.getLsbD_append,
    BitVec.getLsbD_extractLsb']
  grind

/-- The framing of a packet in bytes reads back. -/
theorem packetOfBytes_bytesOfPacket (p : Packet) : packetOfBytes (bytesOfPacket p) = .ok p := by
  cases p with
  | reset => rfl
  | in8 b => rfl
  | reg w =>
    have h : (BitVec.setWidth 8 (w.extractLsb' 32 5)).toNat < 32 := by
      have := (w.extractLsb' 32 5).isLt
      rw [BitVec.toNat_setWidth]
      omega
    simp only [bytesOfPacket, packetOfBytes, h, if_true, Except.ok.injEq, Packet.reg.injEq]
    apply BitVec.eq_of_getElem_eq
    intro i hi
    simp only [← BitVec.getLsbD_eq_getElem, BitVec.getLsbD_setWidth, BitVec.getLsbD_append,
      BitVec.getLsbD_extractLsb']
    grind

namespace Machine

/-! ### Float patterns -/

theorem le32_length (w : Word) : (le32 w).length = 4 := rfl

@[simp] theorem serSample_length (c : C32) : (serSample c).length = 8 := rfl

@[simp] theorem ser_append (xs ys : List C32) : ser (xs ++ ys) = ser xs ++ ser ys := by
  induction xs with
  | nil => rfl
  | cons x xs ih => simp [ser, ih]

/-- The four bytes of a word put together again. -/
theorem wordOfBytes_le32 (w : Word) :
    wordOfBytes (w.extractLsb' 0 8) (w.extractLsb' 8 8) (w.extractLsb' 16 8) (w.extractLsb' 24 8) = w := by
  apply BitVec.eq_of_getElem_eq
  intro i hi
  simp only [wordOfBytes, ← BitVec.getLsbD_eq_getElem, BitVec.getLsbD_append, BitVec.getLsbD_extractLsb']
  grind

/-! ### Codes and masks -/

theorem lowMask_toNat (w m : Nat) : (lowMask w m).toNat = 2 ^ min m w - 1 := by
  have h : 2 ^ min m w ≤ 2 ^ w := Nat.pow_le_pow_right (by omega) (Nat.min_le_right ..)
  have : 0 < 2 ^ min m w := Nat.two_pow_pos _
  rw [lowMask, BitVec.toNat_ofNat]
  exact Nat.mod_eq_of_lt (by omega)

/-- An even number with its last bit set by XOR (43_bit_accumulator.md R132). -/
theorem two_mul_xor_bit (x : Nat) (b : BitVec 1) : (2 * x) ^^^ b.toNat = 2 * x + b.toNat := by
  have hb := b.isLt
  rcases Nat.lt_or_ge b.toNat 1 with h | h
  · rw [show b.toNat = 0 by omega]
    simp
  · rw [show b.toNat = 1 by omega]
    exact Nat.xor_one_of_even ⟨x, by omega⟩

/-- Doubling and adding a bit under twice the modulus. -/
theorem two_mul_mod_add {x b p : Nat} (hb : b < 2) (hp : 0 < p) : 2 * (x % p) + b = (2 * x + b) % (2 * p) := by
  have h1 := Nat.div_add_mod x p
  have h2 := Nat.mod_lt x hp
  have h3 : 2 * x + b = 2 * p * (x / p) + (2 * (x % p) + b) := by
    rw [Nat.mul_assoc]
    omega
  have h4 : (2 * x + b) % (2 * p) = 2 * (x % p) + b := by
    rw [h3, Nat.mul_add_mod]
    exact Nat.mod_eq_of_lt (by omega)
  exact h4.symm

/-- The shift of 43_bit_accumulator.md R128 as arithmetic (R132). -/
theorem shiftBit_toNat {w : Nat} (hw : 1 ≤ w) (m : Nat) (x : BitVec w) (b : BitVec 1) :
    (shiftBit m x b).toNat = (2 * x.toNat + b.toNat) % 2 ^ min m w := by
  have hb := b.isLt
  have hp : 2 ^ w = 2 * 2 ^ (w - 1) := by rw [← Nat.pow_succ']; congr 1; omega
  have h1 : ((x <<< 1) ^^^ b.setWidth w).toNat = (2 * x.toNat + b.toNat) % 2 ^ w := by
    have h2 : (b.setWidth w).toNat = b.toNat := by
      rw [BitVec.toNat_setWidth]
      exact Nat.mod_eq_of_lt (by have := Nat.two_pow_pos (w - 1); omega)
    rw [BitVec.toNat_xor, h2, BitVec.toNat_shiftLeft, Nat.shiftLeft_eq, Nat.pow_one, Nat.mul_comm, hp,
      Nat.mul_mod_mul_left, two_mul_xor_bit, two_mul_mod_add hb (Nat.two_pow_pos _)]
  rw [shiftBit, BitVec.toNat_and, lowMask_toNat, Nat.and_two_pow_sub_one_eq_mod, h1]
  exact Nat.mod_mod_of_dvd _ (Nat.pow_dvd_pow 2 (Nat.min_le_right ..))

end Machine

end Sys2Proof
end

