-- ==== Sys2Proof/Laws/Memory.lean ====
section
/-! SUPPORT. Laws of the memories: read after write, the canonical form, and runs of entries. -/

namespace Sys2Proof.Machine

variable {α : Type}

/-! ### Read after write -/

theorem read_write (m : Mem α) (a b : Nat) (x : α) :
    (m.write a x).read b = if b = a then some x else m.read b := by
  induction m with
  | nil => simp [Mem.write, Mem.read]
  | cons e m ih =>
    obtain ⟨c, v⟩ := e
    simp only [Mem.write]
    split
    · simp [Mem.read]
    · split
      · rename_i h; subst h; simp only [Mem.read]; split <;> rfl
      · rename_i _ h
        simp only [Mem.read, ih]
        by_cases hb : b = c
        · have : b ≠ a := fun hba => h (hba ▸ hb)
          simp [hb]; intro hca; exact absurd hca.symm h
        · simp [hb]

theorem read_writeList (xs : List α) (m : Mem α) (a b : Nat) :
    (m.writeList a xs).read b = if a ≤ b ∧ b < a + xs.length then xs[b - a]? else m.read b := by
  induction xs generalizing m a with
  | nil => simp [Mem.writeList]
  | cons x xs ih =>
    rw [Mem.writeList, ih, read_write]
    by_cases h : b = a
    · subst h; simp
    · by_cases h2 : a + 1 ≤ b ∧ b < a + 1 + xs.length
      · have e : b - a = (b - (a + 1)) + 1 := by omega
        have h3 : a ≤ b ∧ b < a + (x :: xs).length := by simp; omega
        rw [if_pos h2, if_pos h3, e, List.getElem?_cons_succ]
      · have h3 : ¬ (a ≤ b ∧ b < a + (x :: xs).length) := by simp; omega
        rw [if_neg h2, if_neg h3, if_neg h]

/-! ### The canonical form is kept -/

theorem wfFrom_mono {size low low' : Nat} {m : Mem α} (h : m.wfFrom size low = true) (hl : low' ≤ low) :
    m.wfFrom size low' = true := by
  cases m with
  | nil => rfl
  | cons e m =>
    simp only [Mem.wfFrom, Bool.and_eq_true, decide_eq_true_eq] at *
    exact ⟨⟨by omega, h.1.2⟩, h.2⟩

theorem wfFrom_write {size low : Nat} {m : Mem α} {a : Nat} {x : α} (h : m.wfFrom size low = true)
    (hl : low ≤ a) (ha : a < size) : (m.write a x).wfFrom size low = true := by
  induction m generalizing low with
  | nil => simp [Mem.write, Mem.wfFrom, hl, ha]
  | cons e m ih =>
    obtain ⟨c, v⟩ := e
    simp only [Mem.wfFrom, Bool.and_eq_true, decide_eq_true_eq] at h
    simp only [Mem.write]
    split
    · simp only [Mem.wfFrom, Bool.and_eq_true, decide_eq_true_eq]
      exact ⟨⟨hl, ha⟩, ⟨by omega, h.1.2⟩, h.2⟩
    · split
      · rename_i _ hac
        simp only [Mem.wfFrom, Bool.and_eq_true, decide_eq_true_eq]
        exact ⟨⟨hl, ha⟩, hac ▸ h.2⟩
      · simp only [Mem.wfFrom, Bool.and_eq_true, decide_eq_true_eq]
        exact ⟨h.1, ih h.2 (by omega)⟩

/-- A write inside a memory keeps its canonical form. -/
theorem wf_write {size a : Nat} {m : Mem α} {x : α} (h : m.wf size = true) (ha : a < size) :
    (m.write a x).wf size = true :=
  wfFrom_write h (Nat.zero_le a) ha

/-- `MemWrite` inside a memory keeps its canonical form. -/
theorem wf_writeList {size : Nat} {xs : List α} {m : Mem α} {a : Nat} (h : m.wf size = true)
    (ha : a + xs.length ≤ size) : (m.writeList a xs).wf size = true := by
  induction xs generalizing m a with
  | nil => exact h
  | cons x xs ih =>
    simp only [List.length_cons] at ha
    exact ih (wf_write h (by omega)) (by omega)

/-! ### Reading an entry -/

theorem readEntry_toOption (sp : Space) (size : Nat) (m : Mem α) (a : Nat) :
    (readEntry sp size m a).toOption = if a < size then m.read a else none := by
  unfold readEntry
  split
  · split <;> simp_all [Except.toOption]
  · rfl

theorem readEntry_eq_ok {sp : Space} {size : Nat} {m : Mem α} {a : Nat} {v : α} :
    readEntry sp size m a = .ok v ↔ a < size ∧ m.read a = some v := by
  unfold readEntry
  split
  · split <;> simp_all
  · simp_all

theorem toOption_eq_some {ε : Type} {x : Except ε α} {v : α} : x.toOption = some v ↔ x = .ok v := by
  cases x <;> simp [Except.toOption]

theorem readConst_eq_ok {m : Mem Symbol} {k : Nat} {v : Symbol} :
    readConst m k = .ok v ↔ k < constSize ∧ m.read k = some v := readEntry_eq_ok

theorem readTmpl_eq_ok {m : Mem C32} {i : Nat} {v : C32} :
    readTmpl m i = .ok v ↔ i < tmplSize ∧ m.read i = some v := readEntry_eq_ok

theorem readTbl_eq_ok {m : Mem C32} {r i : Nat} {v : C32} :
    readTbl m r i = .ok v ↔ i < Config.spsMax ∧ tblAddress r i < tblSize ∧ m.read (tblAddress r i) = some v := by
  unfold readTbl
  split
  · simp_all [readEntry_eq_ok]
  · simp_all

theorem constAt_eq (s : State) (k : Nat) : constAt s k = if k < constSize then s.const.read k else none :=
  readEntry_toOption ..

theorem tmplAt_eq (s : State) (i : Nat) : tmplAt s i = if i < tmplSize then s.tmpl.read i else none :=
  readEntry_toOption ..

theorem tblAt_eq (s : State) (r i : Nat) :
    tblAt s r i =
      if i < Config.spsMax ∧ tblAddress r i < tblSize then s.tbl.read (tblAddress r i) else none := by
  unfold tblAt readTbl
  split
  · simp_all [readEntry_toOption]
  · simp_all [Except.toOption]

/-- The pair of a table address is unique: 20_memory.md R53's linear address hides nothing. -/
theorem tblAddress_inj {r i r' i' : Nat} (hi : i < Config.spsMax) (hi' : i' < Config.spsMax)
    (h : tblAddress r i = tblAddress r' i') : r = r' ∧ i = i' := by
  have key : ∀ {q j : Nat}, j < Config.spsMax → tblAddress q j / Config.spsMax = q := fun {q j} hj => by
    rw [tblAddress, Nat.mul_comm, Nat.mul_add_div (by omega), Nat.div_eq_of_lt hj, Nat.add_zero]
  have hr : r = r' := by rw [← key (q := r) hi, h, key hi']
  subst hr
  exact ⟨rfl, by simpa [tblAddress] using h⟩

/-- A run of at most `SPS_MAX` entries from the start of a row lies in that row. -/
theorem tblAddress_mem_row {j r i n : Nat} (hi : i < Config.spsMax) (hn : n ≤ Config.spsMax) :
    (tblAddress r 0 ≤ tblAddress j i ∧ tblAddress j i < tblAddress r 0 + n) ↔ j = r ∧ i < n := by
  constructor
  · rintro ⟨h1, h2⟩
    have e : tblAddress j i = tblAddress r (tblAddress j i - tblAddress r 0) := by
      simp only [tblAddress] at *
      omega
    obtain ⟨rfl, h3⟩ := tblAddress_inj hi (by omega) e
    refine ⟨rfl, ?_⟩
    simp only [tblAddress] at *
    omega
  · rintro ⟨rfl, h⟩
    simp only [tblAddress]
    omega

/-- A run of at most `SPS_MAX` entries from the start of a row of the table lies in the table. -/
theorem tblAddress_row_le {r n : Nat} (hr : r < constSize) (hn : n ≤ Config.spsMax) : tblAddress r 0 + n ≤ tblSize := by
  have h : (r + 1) * Config.spsMax ≤ tblSize := Nat.mul_le_mul_right _ hr
  rw [Nat.add_mul] at h
  simp only [tblAddress]
  omega

theorem tblAddress_lt {r i : Nat} (hr : r < constSize) (hi : i < Config.spsMax) : tblAddress r i < tblSize := by
  have := tblAddress_row_le hr (Nat.le_refl Config.spsMax)
  simp only [tblAddress] at *
  omega

/-- `2^M` symbols of a legal M have entries in CONST. -/
theorem two_pow_le_constSize {m : Nat} (h : m ≤ Config.mMax) : 2 ^ m ≤ constSize :=
  Nat.pow_le_pow_right (by omega) h

/-! ### Runs of entries -/

/-- If every entry of a run can be read, the run is those entries. -/
theorem readRun_eq_ok {get : Nat → Except Fault α} {xs : List α} {a : Nat}
    (h : ∀ i (hi : i < xs.length), get (a + i) = .ok xs[i]) : readRun get a xs.length = .ok xs := by
  induction xs generalizing a with
  | nil => rfl
  | cons x xs ih =>
    have h0 := h 0 (by simp)
    have h1 : readRun get (a + 1) xs.length = .ok xs := by
      apply ih
      intro i hi
      have := h (i + 1) (by simp; omega)
      simpa [Nat.add_assoc, Nat.add_comm 1 i] using this
    simp only [Nat.add_zero, List.getElem_cons_zero] at h0
    simp [readRun, h0, h1]

/-- What a run that could be read holds. -/
theorem readRun_ok_inv {get : Nat → Except Fault α} {n : Nat} {xs : List α} {a : Nat}
    (h : readRun get a n = .ok xs) : xs.length = n ∧ ∀ i (hi : i < xs.length), get (a + i) = .ok xs[i] := by
  induction n generalizing a xs with
  | zero => simp only [readRun, Except.ok.injEq] at h; subst h; simp
  | succ n ih =>
    simp only [readRun] at h
    split at h
    · simp at h
    · split at h
      · simp at h
      · rename_i v hv _ vs hvs
        simp only [Except.ok.injEq] at h
        subst h
        obtain ⟨hl, hg⟩ := ih hvs
        refine ⟨by simp [hl], fun i hi => ?_⟩
        cases i with
        | zero => simpa using hv
        | succ i =>
          have := hg i (by simpa using hi)
          simpa [Nat.add_assoc, Nat.add_comm 1 i] using this

end Sys2Proof.Machine
end

