-- ==== Sys2Proof/Laws/State.lean ====
section
/-! SUPPORT. For each named update of the state, one lemma per field. -/

namespace Sys2Proof.Machine

variable (s : State)

/-! ### `State.raise` -/

@[simp] theorem raise_phase (c : Cause) (e a : Word) : (s.raise c e a).phase = .fault := rfl
@[simp] theorem raise_cause (c : Cause) (e a : Word) : (s.raise c e a).cause = c := rfl
@[simp] theorem raise_errExpect (c : Cause) (e a : Word) : (s.raise c e a).errExpect = e := rfl
@[simp] theorem raise_errActual (c : Cause) (e a : Word) : (s.raise c e a).errActual = a := rfl
@[simp] theorem raise_cfgM (c : Cause) (e a : Word) : (s.raise c e a).cfgM = s.cfgM := rfl
@[simp] theorem raise_cfgFs (c : Cause) (e a : Word) : (s.raise c e a).cfgFs = s.cfgFs := rfl
@[simp] theorem raise_cfgBaud (c : Cause) (e a : Word) : (s.raise c e a).cfgBaud = s.cfgBaud := rfl
@[simp] theorem raise_cfgFc (c : Cause) (e a : Word) : (s.raise c e a).cfgFc = s.cfgFc := rfl
@[simp] theorem raise_cfgAngle (c : Cause) (e a : Word) : (s.raise c e a).cfgAngle = s.cfgAngle := rfl
@[simp] theorem raise_tblRows (c : Cause) (e a : Word) : (s.raise c e a).tblRows = s.tblRows := rfl
@[simp] theorem raise_tblCols (c : Cause) (e a : Word) : (s.raise c e a).tblCols = s.tblCols := rfl
@[simp] theorem raise_nsym (c : Cause) (e a : Word) : (s.raise c e a).nsym = s.nsym := rfl
@[simp] theorem raise_sps (c : Cause) (e a : Word) : (s.raise c e a).sps = s.sps := rfl
@[simp] theorem raise_rxBit (c : Cause) (e a : Word) : (s.raise c e a).rxBit = s.rxBit := rfl
@[simp] theorem raise_bitsAccum (c : Cause) (e a : Word) : (s.raise c e a).bitsAccum = s.bitsAccum := rfl
@[simp] theorem raise_const (c : Cause) (e a : Word) : (s.raise c e a).const = s.const := rfl
@[simp] theorem raise_tmpl (c : Cause) (e a : Word) : (s.raise c e a).tmpl = s.tmpl := rfl
@[simp] theorem raise_tbl (c : Cause) (e a : Word) : (s.raise c e a).tbl = s.tbl := rfl
@[simp] theorem raise_out (c : Cause) (e a : Word) : (s.raise c e a).out = s.out := rfl
@[simp] theorem raise_sink (c : Cause) (e a : Word) : (s.raise c e a).sink = s.sink := rfl
@[simp] theorem raise_syms (c : Cause) (e a : Word) : (s.raise c e a).syms = s.syms := rfl
@[simp] theorem raise_sinkOpen (c : Cause) (e a : Word) : (s.raise c e a).sinkOpen = if s.phase = .run then false else s.sinkOpen := rfl
@[simp] theorem raise_bits (c : Cause) (e a : Word) : (s.raise c e a).bits = s.bits := rfl
@[simp] theorem raise_env (c : Cause) (e a : Word) : (s.raise c e a).env = s.env := rfl

/-! ### `State.answered` -/

@[simp] theorem answered_phase : s.answered.phase = s.phase := rfl
@[simp] theorem answered_cause : s.answered.cause = s.cause := rfl
@[simp] theorem answered_errExpect : s.answered.errExpect = s.errExpect := rfl
@[simp] theorem answered_errActual : s.answered.errActual = s.errActual := rfl
@[simp] theorem answered_cfgM : s.answered.cfgM = s.cfgM := rfl
@[simp] theorem answered_cfgFs : s.answered.cfgFs = s.cfgFs := rfl
@[simp] theorem answered_cfgBaud : s.answered.cfgBaud = s.cfgBaud := rfl
@[simp] theorem answered_cfgFc : s.answered.cfgFc = s.cfgFc := rfl
@[simp] theorem answered_cfgAngle : s.answered.cfgAngle = s.cfgAngle := rfl
@[simp] theorem answered_tblRows : s.answered.tblRows = s.tblRows := rfl
@[simp] theorem answered_tblCols : s.answered.tblCols = s.tblCols := rfl
@[simp] theorem answered_nsym : s.answered.nsym = s.nsym := rfl
@[simp] theorem answered_sps : s.answered.sps = s.sps := rfl
@[simp] theorem answered_rxBit : s.answered.rxBit = s.rxBit := rfl
@[simp] theorem answered_bitsAccum : s.answered.bitsAccum = s.bitsAccum := rfl
@[simp] theorem answered_const : s.answered.const = s.const := rfl
@[simp] theorem answered_tmpl : s.answered.tmpl = s.tmpl := rfl
@[simp] theorem answered_tbl : s.answered.tbl = s.tbl := rfl
@[simp] theorem answered_out : s.answered.out = s.out := rfl
@[simp] theorem answered_sink : s.answered.sink = s.sink := rfl
@[simp] theorem answered_syms : s.answered.syms = s.syms := rfl
@[simp] theorem answered_sinkOpen : s.answered.sinkOpen = s.sinkOpen := rfl
@[simp] theorem answered_bits : s.answered.bits = s.bits := rfl
@[simp] theorem answered_env : s.answered.env = { s.env with tape := s.env.tape.tail, draws := s.env.draws + 1 } := rfl

/-! ### `State.returnToHost` -/

@[simp] theorem returnToHost_phase (v : Word) : (s.returnToHost v).phase = s.phase := rfl
@[simp] theorem returnToHost_cause (v : Word) : (s.returnToHost v).cause = s.cause := rfl
@[simp] theorem returnToHost_errExpect (v : Word) : (s.returnToHost v).errExpect = s.errExpect := rfl
@[simp] theorem returnToHost_errActual (v : Word) : (s.returnToHost v).errActual = s.errActual := rfl
@[simp] theorem returnToHost_cfgM (v : Word) : (s.returnToHost v).cfgM = s.cfgM := rfl
@[simp] theorem returnToHost_cfgFs (v : Word) : (s.returnToHost v).cfgFs = s.cfgFs := rfl
@[simp] theorem returnToHost_cfgBaud (v : Word) : (s.returnToHost v).cfgBaud = s.cfgBaud := rfl
@[simp] theorem returnToHost_cfgFc (v : Word) : (s.returnToHost v).cfgFc = s.cfgFc := rfl
@[simp] theorem returnToHost_cfgAngle (v : Word) : (s.returnToHost v).cfgAngle = s.cfgAngle := rfl
@[simp] theorem returnToHost_tblRows (v : Word) : (s.returnToHost v).tblRows = s.tblRows := rfl
@[simp] theorem returnToHost_tblCols (v : Word) : (s.returnToHost v).tblCols = s.tblCols := rfl
@[simp] theorem returnToHost_nsym (v : Word) : (s.returnToHost v).nsym = s.nsym := rfl
@[simp] theorem returnToHost_sps (v : Word) : (s.returnToHost v).sps = s.sps := rfl
@[simp] theorem returnToHost_rxBit (v : Word) : (s.returnToHost v).rxBit = s.rxBit := rfl
@[simp] theorem returnToHost_bitsAccum (v : Word) : (s.returnToHost v).bitsAccum = s.bitsAccum := rfl
@[simp] theorem returnToHost_const (v : Word) : (s.returnToHost v).const = s.const := rfl
@[simp] theorem returnToHost_tmpl (v : Word) : (s.returnToHost v).tmpl = s.tmpl := rfl
@[simp] theorem returnToHost_tbl (v : Word) : (s.returnToHost v).tbl = s.tbl := rfl
@[simp] theorem returnToHost_out (v : Word) : (s.returnToHost v).out = s.out := rfl
@[simp] theorem returnToHost_sink (v : Word) : (s.returnToHost v).sink = s.sink := rfl
@[simp] theorem returnToHost_syms (v : Word) : (s.returnToHost v).syms = s.syms := rfl
@[simp] theorem returnToHost_sinkOpen (v : Word) : (s.returnToHost v).sinkOpen = s.sinkOpen := rfl
@[simp] theorem returnToHost_bits (v : Word) : (s.returnToHost v).bits = s.bits := rfl
@[simp] theorem returnToHost_env (v : Word) : (s.returnToHost v).env = { s.env with reads := s.env.reads ++ [v] } := rfl

/-! ### `State.offer` -/

@[simp] theorem offer_phase (p : Packet) : (s.offer p).phase = s.phase := rfl
@[simp] theorem offer_cause (p : Packet) : (s.offer p).cause = s.cause := rfl
@[simp] theorem offer_errExpect (p : Packet) : (s.offer p).errExpect = s.errExpect := rfl
@[simp] theorem offer_errActual (p : Packet) : (s.offer p).errActual = s.errActual := rfl
@[simp] theorem offer_cfgM (p : Packet) : (s.offer p).cfgM = s.cfgM := rfl
@[simp] theorem offer_cfgFs (p : Packet) : (s.offer p).cfgFs = s.cfgFs := rfl
@[simp] theorem offer_cfgBaud (p : Packet) : (s.offer p).cfgBaud = s.cfgBaud := rfl
@[simp] theorem offer_cfgFc (p : Packet) : (s.offer p).cfgFc = s.cfgFc := rfl
@[simp] theorem offer_cfgAngle (p : Packet) : (s.offer p).cfgAngle = s.cfgAngle := rfl
@[simp] theorem offer_tblRows (p : Packet) : (s.offer p).tblRows = s.tblRows := rfl
@[simp] theorem offer_tblCols (p : Packet) : (s.offer p).tblCols = s.tblCols := rfl
@[simp] theorem offer_nsym (p : Packet) : (s.offer p).nsym = s.nsym := rfl
@[simp] theorem offer_sps (p : Packet) : (s.offer p).sps = s.sps := rfl
@[simp] theorem offer_rxBit (p : Packet) : (s.offer p).rxBit = s.rxBit := rfl
@[simp] theorem offer_bitsAccum (p : Packet) : (s.offer p).bitsAccum = s.bitsAccum := rfl
@[simp] theorem offer_const (p : Packet) : (s.offer p).const = s.const := rfl
@[simp] theorem offer_tmpl (p : Packet) : (s.offer p).tmpl = s.tmpl := rfl
@[simp] theorem offer_tbl (p : Packet) : (s.offer p).tbl = s.tbl := rfl
@[simp] theorem offer_out (p : Packet) : (s.offer p).out = s.out := rfl
@[simp] theorem offer_sink (p : Packet) : (s.offer p).sink = s.sink := rfl
@[simp] theorem offer_syms (p : Packet) : (s.offer p).syms = s.syms := rfl
@[simp] theorem offer_sinkOpen (p : Packet) : (s.offer p).sinkOpen = s.sinkOpen := rfl
@[simp] theorem offer_bits (p : Packet) : (s.offer p).bits = s.bits := rfl
@[simp] theorem offer_env (p : Packet) : (s.offer p).env = { s.env with inbox := p :: s.env.inbox } := rfl

/-! ### `State.clearAccumulator` -/

@[simp] theorem clearAccumulator_phase : s.clearAccumulator.phase = s.phase := rfl
@[simp] theorem clearAccumulator_cause : s.clearAccumulator.cause = s.cause := rfl
@[simp] theorem clearAccumulator_errExpect : s.clearAccumulator.errExpect = s.errExpect := rfl
@[simp] theorem clearAccumulator_errActual : s.clearAccumulator.errActual = s.errActual := rfl
@[simp] theorem clearAccumulator_cfgM : s.clearAccumulator.cfgM = s.cfgM := rfl
@[simp] theorem clearAccumulator_cfgFs : s.clearAccumulator.cfgFs = s.cfgFs := rfl
@[simp] theorem clearAccumulator_cfgBaud : s.clearAccumulator.cfgBaud = s.cfgBaud := rfl
@[simp] theorem clearAccumulator_cfgFc : s.clearAccumulator.cfgFc = s.cfgFc := rfl
@[simp] theorem clearAccumulator_cfgAngle : s.clearAccumulator.cfgAngle = s.cfgAngle := rfl
@[simp] theorem clearAccumulator_tblRows : s.clearAccumulator.tblRows = s.tblRows := rfl
@[simp] theorem clearAccumulator_tblCols : s.clearAccumulator.tblCols = s.tblCols := rfl
@[simp] theorem clearAccumulator_nsym : s.clearAccumulator.nsym = s.nsym := rfl
@[simp] theorem clearAccumulator_sps : s.clearAccumulator.sps = s.sps := rfl
@[simp] theorem clearAccumulator_rxBit : s.clearAccumulator.rxBit = 0 := rfl
@[simp] theorem clearAccumulator_bitsAccum : s.clearAccumulator.bitsAccum = 0 := rfl
@[simp] theorem clearAccumulator_const : s.clearAccumulator.const = s.const := rfl
@[simp] theorem clearAccumulator_tmpl : s.clearAccumulator.tmpl = s.tmpl := rfl
@[simp] theorem clearAccumulator_tbl : s.clearAccumulator.tbl = s.tbl := rfl
@[simp] theorem clearAccumulator_out : s.clearAccumulator.out = s.out := rfl
@[simp] theorem clearAccumulator_sink : s.clearAccumulator.sink = s.sink := rfl
@[simp] theorem clearAccumulator_syms : s.clearAccumulator.syms = s.syms := rfl
@[simp] theorem clearAccumulator_sinkOpen : s.clearAccumulator.sinkOpen = s.sinkOpen := rfl
@[simp] theorem clearAccumulator_bits : s.clearAccumulator.bits = s.bits := rfl
@[simp] theorem clearAccumulator_env : s.clearAccumulator.env = s.env := rfl

/-! ### `State.startSession` -/

@[simp] theorem startSession_phase : s.startSession.phase = s.phase := rfl
@[simp] theorem startSession_cause : s.startSession.cause = s.cause := rfl
@[simp] theorem startSession_errExpect : s.startSession.errExpect = s.errExpect := rfl
@[simp] theorem startSession_errActual : s.startSession.errActual = s.errActual := rfl
@[simp] theorem startSession_cfgM : s.startSession.cfgM = s.cfgM := rfl
@[simp] theorem startSession_cfgFs : s.startSession.cfgFs = s.cfgFs := rfl
@[simp] theorem startSession_cfgBaud : s.startSession.cfgBaud = s.cfgBaud := rfl
@[simp] theorem startSession_cfgFc : s.startSession.cfgFc = s.cfgFc := rfl
@[simp] theorem startSession_cfgAngle : s.startSession.cfgAngle = s.cfgAngle := rfl
@[simp] theorem startSession_tblRows : s.startSession.tblRows = s.tblRows := rfl
@[simp] theorem startSession_tblCols : s.startSession.tblCols = s.tblCols := rfl
@[simp] theorem startSession_nsym : s.startSession.nsym = s.nsym := rfl
@[simp] theorem startSession_sps : s.startSession.sps = s.sps := rfl
@[simp] theorem startSession_rxBit : s.startSession.rxBit = 0 := rfl
@[simp] theorem startSession_bitsAccum : s.startSession.bitsAccum = 0 := rfl
@[simp] theorem startSession_const : s.startSession.const = s.const := rfl
@[simp] theorem startSession_tmpl : s.startSession.tmpl = s.tmpl := rfl
@[simp] theorem startSession_tbl : s.startSession.tbl = s.tbl := rfl
@[simp] theorem startSession_out : s.startSession.out = [] := rfl
@[simp] theorem startSession_sink : s.startSession.sink = s.sink := rfl
@[simp] theorem startSession_syms : s.startSession.syms = [] := rfl
@[simp] theorem startSession_sinkOpen : s.startSession.sinkOpen = s.sinkOpen := rfl
@[simp] theorem startSession_bits : s.startSession.bits = [] := rfl
@[simp] theorem startSession_env : s.startSession.env = s.env := rfl

/-! ### `State.shiftIn` -/

@[simp] theorem shiftIn_phase (b : BitVec 1) : (s.shiftIn b).phase = s.phase := rfl
@[simp] theorem shiftIn_cause (b : BitVec 1) : (s.shiftIn b).cause = s.cause := rfl
@[simp] theorem shiftIn_errExpect (b : BitVec 1) : (s.shiftIn b).errExpect = s.errExpect := rfl
@[simp] theorem shiftIn_errActual (b : BitVec 1) : (s.shiftIn b).errActual = s.errActual := rfl
@[simp] theorem shiftIn_cfgM (b : BitVec 1) : (s.shiftIn b).cfgM = s.cfgM := rfl
@[simp] theorem shiftIn_cfgFs (b : BitVec 1) : (s.shiftIn b).cfgFs = s.cfgFs := rfl
@[simp] theorem shiftIn_cfgBaud (b : BitVec 1) : (s.shiftIn b).cfgBaud = s.cfgBaud := rfl
@[simp] theorem shiftIn_cfgFc (b : BitVec 1) : (s.shiftIn b).cfgFc = s.cfgFc := rfl
@[simp] theorem shiftIn_cfgAngle (b : BitVec 1) : (s.shiftIn b).cfgAngle = s.cfgAngle := rfl
@[simp] theorem shiftIn_tblRows (b : BitVec 1) : (s.shiftIn b).tblRows = s.tblRows := rfl
@[simp] theorem shiftIn_tblCols (b : BitVec 1) : (s.shiftIn b).tblCols = s.tblCols := rfl
@[simp] theorem shiftIn_nsym (b : BitVec 1) : (s.shiftIn b).nsym = s.nsym := rfl
@[simp] theorem shiftIn_sps (b : BitVec 1) : (s.shiftIn b).sps = s.sps := rfl
@[simp] theorem shiftIn_rxBit (b : BitVec 1) : (s.shiftIn b).rxBit = shiftBit s.cfgM.toNat s.rxBit b := rfl
@[simp] theorem shiftIn_bitsAccum (b : BitVec 1) : (s.shiftIn b).bitsAccum = s.bitsAccum + 1 := rfl
@[simp] theorem shiftIn_const (b : BitVec 1) : (s.shiftIn b).const = s.const := rfl
@[simp] theorem shiftIn_tmpl (b : BitVec 1) : (s.shiftIn b).tmpl = s.tmpl := rfl
@[simp] theorem shiftIn_tbl (b : BitVec 1) : (s.shiftIn b).tbl = s.tbl := rfl
@[simp] theorem shiftIn_out (b : BitVec 1) : (s.shiftIn b).out = s.out := rfl
@[simp] theorem shiftIn_sink (b : BitVec 1) : (s.shiftIn b).sink = s.sink := rfl
@[simp] theorem shiftIn_syms (b : BitVec 1) : (s.shiftIn b).syms = s.syms := rfl
@[simp] theorem shiftIn_sinkOpen (b : BitVec 1) : (s.shiftIn b).sinkOpen = s.sinkOpen := rfl
@[simp] theorem shiftIn_bits (b : BitVec 1) : (s.shiftIn b).bits = s.bits ++ [b] := rfl
@[simp] theorem shiftIn_env (b : BitVec 1) : (s.shiftIn b).env = s.env := rfl

/-! ### `State.resetEvent` -/

theorem resetEvent_eq : s.resetEvent = { State.reset with env := s.env } := rfl
@[simp] theorem resetEvent_phase : s.resetEvent.phase = .idle := rfl
@[simp] theorem resetEvent_cause : s.resetEvent.cause = .none := rfl
@[simp] theorem resetEvent_env : s.resetEvent.env = s.env := rfl

end Sys2Proof.Machine
end

