-- ==== Sys2Proof/Laws/Ops.lean ====
section
/-! SUPPORT. One law per shared operation: all that it can do. -/

namespace Sys2Proof.Machine

/-! ### Outcomes -/

@[simp] theorem faulted_iff (s : State) : faulted s = true ↔ s.phase = .fault := by simp [faulted]

theorem finish_eq_next {x : Except Fault State} {t : State} : finish x = .next t ↔ x = .ok t := by
  cases x <;> simp [finish]

/-! ### The shape of an operation -/

theorem inPhase_fault {needs : Phase → Bool} {want : Phase} {s : State} {op : State → Result}
    (h : s.phase = .fault) : inPhase needs want s op = .next s := by
  simp [inPhase, h]

theorem inPhase_needed {needs : Phase → Bool} {want : Phase} {s : State} {op : State → Result}
    (h : s.phase ≠ .fault) (hn : needs s.phase = true) : inPhase needs want s op = op s := by
  simp [inPhase, h, hn]

theorem inPhase_wrong {needs : Phase → Bool} {want : Phase} {s : State} {op : State → Result}
    (h : s.phase ≠ .fault) (hn : needs s.phase = false) :
    inPhase needs want s op = .next (s.raise .seq (phaseWord want) (phaseWord s.phase)) := by
  simp [inPhase, h, hn]

/-- All that an operation behind a phase check can do. -/
theorem inPhase_next {needs : Phase → Bool} {want : Phase} {s t : State} {op : State → Result}
    (h : inPhase needs want s op = .next t) :
    (s.phase = .fault ∧ t = s) ∨
      (s.phase ≠ .fault ∧ needs s.phase = true ∧ op s = .next t) ∨
      (s.phase ≠ .fault ∧ needs s.phase = false ∧
        t = s.raise .seq (phaseWord want) (phaseWord s.phase)) := by
  unfold inPhase at h
  split at h
  · rename_i hf
    exact .inl ⟨by simpa using hf, by simpa using h.symm⟩
  · rename_i hf
    have hf' : s.phase ≠ .fault := by simpa using hf
    split at h
    · rename_i hn; exact .inr (.inl ⟨hf', hn, h⟩)
    · rename_i hn; exact .inr (.inr ⟨hf', by simpa using hn, by simpa using h.symm⟩)

/-- All that an illegal write can do. -/
theorem illegalWrite_next {n d : Word} {s t : State} (h : illegalWrite n d s = .next t) :
    (s.phase = .fault ∧ t = s) ∨ (s.phase ≠ .fault ∧ t = s.raise .cmd n d) := by
  unfold illegalWrite at h
  split at h
  · rename_i hf; exact .inl ⟨by simpa using hf, by simpa using h.symm⟩
  · rename_i hf; exact .inr ⟨by simpa using hf, by simpa using h.symm⟩

/-! ### BCON -/

@[simp] theorem constellation_length (num : Sys2Proof.Num) (a0 : F32) (m : Nat) :
    (constellation num a0 m).length = 2 ^ m := by simp [constellation]

theorem constellation_getElem? (num : Sys2Proof.Num) (a0 : F32) {m k : Nat} (h : k < 2 ^ m) :
    (constellation num a0 m)[k]? = some ⟨one32, num.angle a0 k m⟩ := by
  simp [constellation, h]

/-- All that BCON's work can do. -/
theorem buildConstellation_cases (num : Sys2Proof.Num) (s : State) :
    ((s.cfgM.toNat = 0 ∨ Config.mMax < s.cfgM.toNat) ∧
      buildConstellation num s = s.raise .cfgM (BitVec.ofNat 32 Config.mMax) s.cfgM) ∨
    (1 ≤ s.cfgM.toNat ∧ s.cfgM.toNat ≤ Config.mMax ∧ isFinite (dec32 s.cfgAngle) = false ∧
      buildConstellation num s = s.raise .cfgAngle 0#32 s.cfgAngle) ∨
    (1 ≤ s.cfgM.toNat ∧ s.cfgM.toNat ≤ Config.mMax ∧ isFinite (dec32 s.cfgAngle) = true ∧
      buildConstellation num s =
        { s with
          const := s.const.writeList 0 (constellation num (dec32 s.cfgAngle) s.cfgM.toNat)
          nsym := BitVec.ofNat 32 (2 ^ s.cfgM.toNat)
          phase := .const }) := by
  unfold buildConstellation
  split
  · rename_i h; exact .inl ⟨h, rfl⟩
  · rename_i h
    have h1 : 1 ≤ s.cfgM.toNat := by omega
    have h2 : s.cfgM.toNat ≤ Config.mMax := by omega
    split
    · rename_i hf; exact .inr (.inl ⟨h1, h2, hf, rfl⟩)
    · rename_i hf; exact .inr (.inr ⟨h1, h2, by simpa using hf, rfl⟩)

/-! ### BTAB -/

/-- What one row of the table becomes. -/
theorem buildRow_ok {num : Sys2Proof.Num} {const : Mem Symbol} {tmpl tbl : Mem C32} {r : Nat} {c : Symbol}
    {xs : List C32} (hc : readConst const r = .ok c) (hx : readRun (readTmpl tmpl) 0 xs.length = .ok xs) :
    buildRow num const tmpl xs.length r tbl =
      .ok (tbl.writeList (tblAddress r 0) (xs.map fun x => num.cmul x (multiplier num c))) := by
  simp [buildRow, hc, hx]

/-- What the rows of the table become, entry by entry; and the canonical form is kept. -/
theorem buildRows_ok {num : Sys2Proof.Num} {const : Mem Symbol} {tmpl : Mem C32} {xs : List C32} {c : Nat → Symbol}
    (hx : readRun (readTmpl tmpl) 0 xs.length = .ok xs) (hn : xs.length ≤ Config.spsMax) (k r : Nat) (tbl : Mem C32)
    (hc : ∀ j, r ≤ j → j < r + k → readConst const j = .ok (c j)) :
    ∃ tbl', buildRows num const tmpl xs.length r k tbl = .ok tbl' ∧
      (∀ j i, i < Config.spsMax → tbl'.read (tblAddress j i) =
        if r ≤ j ∧ j < r + k ∧ i < xs.length then xs[i]?.map fun x => num.cmul x (multiplier num (c j))
        else tbl.read (tblAddress j i)) ∧
      (tbl.wf tblSize = true → tbl'.wf tblSize = true) := by
  induction k generalizing r tbl with
  | zero =>
    refine ⟨tbl, rfl, fun j i _ => ?_, id⟩
    rw [if_neg (by omega)]
  | succ k ih =>
    have hr := hc r (Nat.le_refl r) (by omega)
    obtain ⟨tbl', h1, h2, h3⟩ := ih (r + 1)
      (tbl.writeList (tblAddress r 0) (xs.map fun x => num.cmul x (multiplier num (c r))))
      (fun j h4 h5 => hc j (by omega) (by omega))
    refine ⟨tbl', by simp only [buildRows, buildRow_ok hr hx, h1], fun j i hi => ?_, fun hw => h3 ?_⟩
    · rw [h2 j i hi, read_writeList, List.length_map]
      simp only [tblAddress_mem_row hi hn]
      by_cases hin : r + 1 ≤ j ∧ j < r + 1 + k ∧ i < xs.length
      · rw [if_pos hin, if_pos (by omega)]
      · rw [if_neg hin]
        by_cases hj : j = r ∧ i < xs.length
        · obtain ⟨rfl, hxi⟩ := hj
          rw [if_pos ⟨rfl, hxi⟩, if_pos (by omega)]
          rw [show tblAddress j i - tblAddress j 0 = i by simp only [tblAddress]; omega]
          simp
        · rw [if_neg hj, if_neg (by omega)]
    · refine wf_writeList hw ?_
      rw [List.length_map]
      exact tblAddress_row_le (readConst_eq_ok.mp hr).1 hn

/-- All that BTAB's work can do. -/
theorem buildTables_cases (num : Sys2Proof.Num) (s : State) :
    (s.cfgFs = 0#32 ∧ buildTables num s = .ok (s.raise .cfgRate 1#32 0#32)) ∨
    (s.cfgFs ≠ 0#32 ∧ s.cfgBaud = 0#32 ∧ buildTables num s = .ok (s.raise .cfgRate 2#32 0#32)) ∨
    (s.cfgFs ≠ 0#32 ∧ s.cfgBaud ≠ 0#32 ∧ Config.spsMax < ceilDiv s.cfgFs.toNat s.cfgBaud.toNat ∧
      buildTables num s = .ok (s.raise .cfgRate (BitVec.ofNat 32 Config.spsMax)
        (BitVec.ofNat 32 (ceilDiv s.cfgFs.toNat s.cfgBaud.toNat)))) ∨
    (s.cfgFs ≠ 0#32 ∧ s.cfgBaud ≠ 0#32 ∧ ceilDiv s.cfgFs.toNat s.cfgBaud.toNat ≤ Config.spsMax ∧
      s.tblRows ≠ s.nsym ∧ buildTables num s = .ok (s.raise .cfgDim s.nsym s.tblRows)) ∨
    (s.cfgFs ≠ 0#32 ∧ s.cfgBaud ≠ 0#32 ∧ ceilDiv s.cfgFs.toNat s.cfgBaud.toNat ≤ Config.spsMax ∧
      s.tblRows = s.nsym ∧ s.tblCols.toNat ≠ ceilDiv s.cfgFs.toNat s.cfgBaud.toNat ∧
      buildTables num s = .ok (s.raise .cfgDim
        (BitVec.ofNat 32 (ceilDiv s.cfgFs.toNat s.cfgBaud.toNat)) s.tblCols)) ∨
    (s.cfgFs ≠ 0#32 ∧ s.cfgBaud ≠ 0#32 ∧ ceilDiv s.cfgFs.toNat s.cfgBaud.toNat ≤ Config.spsMax ∧
      s.tblRows = s.nsym ∧ s.tblCols.toNat = ceilDiv s.cfgFs.toNat s.cfgBaud.toNat ∧
      buildTables num s = fillTables num (ceilDiv s.cfgFs.toNat s.cfgBaud.toNat) s) := by
  unfold buildTables
  by_cases h1 : s.cfgFs = 0#32
  · simp [h1]
  by_cases h2 : s.cfgBaud = 0#32
  · simp [h1, h2]
  by_cases h3 : Config.spsMax < ceilDiv s.cfgFs.toNat s.cfgBaud.toNat
  · simp [h1, h2, h3]
  by_cases h4 : s.tblRows = s.nsym
  · by_cases h5 : s.tblCols.toNat = ceilDiv s.cfgFs.toNat s.cfgBaud.toNat
    · simp [h1, h2, h3, h4, h5]
      omega
    · simp [h1, h2, h3, h4, h5]
      omega
  · simp [h1, h2, h3, h4]
    omega

@[simp] theorem carrier_length (num : Sys2Proof.Num) (fc fs : Word) (n : Nat) : (carrier num fc fs n).length = n := by
  simp [carrier]

theorem carrier_getElem? (num : Sys2Proof.Num) (fc fs : Word) {n i : Nat} (h : i < n) :
    (carrier num fc fs n)[i]? = some (carrierSample num fc fs i) := by
  simp [carrier, h]

/-- The template as BTAB has just written it reads back whole. -/
theorem readRun_carrier (num : Sys2Proof.Num) (fc fs : Word) {n : Nat} (m : Mem C32) (h : n ≤ Config.spsMax) :
    readRun (readTmpl (m.writeList 0 (carrier num fc fs n))) 0 (carrier num fc fs n).length =
      .ok (carrier num fc fs n) := by
  apply readRun_eq_ok
  intro i hi
  have hi' : i < n := by simpa using hi
  rw [readTmpl_eq_ok, read_writeList, if_pos (by omega)]
  refine ⟨by simp only [tmplSize]; omega, ?_⟩
  simp

/-- What BTAB leaves when it goes on: the state, its tables entry by entry, and their canonical form. -/
theorem fillTables_ok {num : Sys2Proof.Num} {n : Nat} {s : State} {c : Nat → Symbol} (hn : n ≤ Config.spsMax)
    (hc : ∀ r, r < s.nsym.toNat → readConst s.const r = .ok (c r)) :
    ∃ tbl', fillTables num n s =
        .ok { s with
          tmpl := s.tmpl.writeList 0 (carrier num s.cfgFc s.cfgFs n)
          tbl := tbl', sps := BitVec.ofNat 32 n, phase := .ready } ∧
      (∀ r i, i < Config.spsMax → tbl'.read (tblAddress r i) =
        if r < s.nsym.toNat ∧ i < n then
          some (num.cmul (carrierSample num s.cfgFc s.cfgFs i) (multiplier num (c r)))
        else s.tbl.read (tblAddress r i)) ∧
      (s.tbl.wf tblSize = true → tbl'.wf tblSize = true) := by
  obtain ⟨tbl', h1, h2, h3⟩ := buildRows_ok (num := num) (const := s.const)
    (readRun_carrier num s.cfgFc s.cfgFs s.tmpl hn) (by simpa using hn) s.nsym.toNat 0 s.tbl
    (c := c) (fun j _ hj => hc j (by omega))
  refine ⟨tbl', ?_, fun r i hi => ?_, h3⟩
  · rw [carrier_length] at h1
    simp [fillTables, h1]
  · rw [h2 r i hi]
    by_cases h : r < s.nsym.toNat ∧ i < n
    · rw [if_pos (by simp; omega), if_pos h, carrier_getElem? _ _ _ h.2]
      rfl
    · rw [if_neg (by simp; omega), if_neg h]

/-! ### EMIT and PUSH -/

/-- EMIT when its row can be read. -/
theorem emitSymbol_ok {idx : BitVec Config.mMax} {s : State} {row : List C32} (hl : row.length = s.sps.toNat)
    (h : ∀ i, i < s.sps.toNat → tblAt s idx.toNat i = row[i]?) :
    emitSymbol idx s = .ok (s.emitRow idx row) := by
  have : readRun (readTbl s.tbl idx.toNat) 0 row.length = .ok row := by
    apply readRun_eq_ok
    intro i hi
    rw [← toOption_eq_some, Nat.zero_add]
    have := h i (by omega)
    rw [List.getElem?_eq_getElem hi] at this
    exact this
  rw [hl] at this
  simp [emitSymbol, this]

/-- All that EMIT can do when it goes on. -/
theorem emitSymbol_inv {idx : BitVec Config.mMax} {s t : State} (h : emitSymbol idx s = .ok t) :
    ∃ row : List C32, row.length = s.sps.toNat ∧
      (∀ i, i < s.sps.toNat → tblAt s idx.toNat i = row[i]?) ∧ t = s.emitRow idx row := by
  unfold emitSymbol at h
  split at h
  · simp at h
  · rename_i row hr
    obtain ⟨hl, hg⟩ := readRun_ok_inv hr
    refine ⟨row, hl, fun i hi => ?_, by simpa using h.symm⟩
    have h1 := hg i (by omega)
    rw [List.getElem?_eq_getElem (by omega)]
    exact toOption_eq_some.mpr (by simpa using h1)

theorem ser_length (xs : List C32) : (ser xs).length = xs.length * 8 := by
  induction xs with
  | nil => rfl
  | cons x xs ih => simp [ser, ih]; omega

/-- The two outcomes of handing a burst to the sink. -/
theorem emitRow_cases {s : State} {idx : BitVec Config.mMax} {row : List C32} (hl : row.length = s.sps.toNat) :
    (8 * s.sps.toNat ≤ s.nextAnswer ∧ s.emitRow idx row =
      { s.answered with out := s.out ++ row, syms := s.syms ++ [idx], sink := s.sink ++ ser row }) ∨
    (s.nextAnswer < 8 * s.sps.toNat ∧ s.emitRow idx row =
      ({ s.answered with
        out := s.out ++ row, syms := s.syms ++ [idx]
        sink := s.sink ++ (ser row).take s.nextAnswer } : State).raise .ioShort
          (BitVec.ofNat 32 (8 * s.sps.toNat)) (BitVec.ofNat 32 s.nextAnswer)) := by
  have hb : (ser row).length = 8 * s.sps.toNat := by rw [ser_length, hl, Nat.mul_comm]
  unfold State.emitRow State.drawUpTo
  rcases Nat.lt_or_ge s.nextAnswer (8 * s.sps.toNat) with h | h
  · right
    refine ⟨h, ?_⟩
    have hm : min s.nextAnswer (ser row).length = s.nextAnswer := by omega
    have hne : s.nextAnswer ≠ 8 * s.sps.toNat := by omega
    simp only [hm, hne, if_false]
  · left
    refine ⟨h, ?_⟩
    have hm : min s.nextAnswer (ser row).length = 8 * s.sps.toNat := by omega
    simp only [hm, if_true]
    rw [List.take_of_length_le (by omega)]

/-- All that PUSH's work can do when it goes on. -/
theorem pushBit_cases {b : BitVec 1} {s t : State} (h : pushBit b s = .ok t) :
    ((s.bitsAccum + 1).toNat ≠ s.cfgM.toNat ∧ t = s.shiftIn b) ∨
    ((s.bitsAccum + 1).toNat = s.cfgM.toNat ∧
      ∃ u, emitSymbol (s.shiftIn b).rxBit (s.shiftIn b) = .ok u ∧
        t = if u.phase = .fault then u else u.clearAccumulator) := by
  unfold pushBit at h
  simp only at h
  split at h
  · rename_i hc
    refine .inr ⟨by simpa [symbolComplete] using hc, ?_⟩
    split at h
    · simp at h
    · rename_i u hu
      refine ⟨u, hu, ?_⟩
      by_cases hf : u.phase = .fault
      · simpa [faulted, hf] using h.symm
      · simpa [faulted, hf] using h.symm
  · rename_i hc
    exact .inl ⟨by simpa [symbolComplete] using hc, by simpa using h.symm⟩

/-! ### The step -/

/-- All that a step can do. -/
theorem step_cases (s : State) :
    (s.env.inbox = [] ∧ step s = .next s) ∨
      ∃ p ps, s.env.inbox = p :: ps ∧
        step s = exec (decode p) { s with env := { s.env with inbox := ps } } := by
  unfold step State.takePacket
  cases h : s.env.inbox with
  | nil => simp
  | cons p ps => exact .inr ⟨p, ps, rfl, rfl⟩

end Sys2Proof.Machine
end

