-- ==== Sys2Proof/Laws/Exec.lean ====
section
/-! SUPPORT. The inversion law of `exec`: all that an operation can do when it goes on. -/

namespace Sys2Proof.Machine

/-- What operation `i` does from `s` when it neither finds P_FAULT nor raises a fault of its phase, its legality or
its configuration. -/
def Effect (i : Instr) (s t : State) : Prop :=
  match i with
  | .rdreg n _ => t = s.returnToHost (readRegister s n)
  | .bcon => s.phase = .idle ∧ 1 ≤ s.cfgM.toNat ∧ s.cfgM.toNat ≤ Config.mMax ∧
      isFinite (dec32 s.cfgAngle) = true ∧
      t = { s with
        const := s.const.writeList 0 (constellation Config.num (dec32 s.cfgAngle) s.cfgM.toNat)
        nsym := BitVec.ofNat 32 (2 ^ s.cfgM.toNat)
        phase := .const }
  | .btab => s.phase = .const ∧ s.cfgFs ≠ 0#32 ∧ s.cfgBaud ≠ 0#32 ∧
      ceilDiv s.cfgFs.toNat s.cfgBaud.toNat ≤ Config.spsMax ∧ s.tblRows = s.nsym ∧
      s.tblCols.toNat = ceilDiv s.cfgFs.toNat s.cfgBaud.toNat ∧
      fillTables Config.num (ceilDiv s.cfgFs.toNat s.cfgBaud.toNat) s = .ok t
  | .openSession => (s.phase = .ready ∨ s.phase = .done) ∧ t = beginSession s
  | .eoi => s.phase = .run ∧ t = endSession s
  | .wrregCfgM d => s.phase = .idle ∧ t = { s with cfgM := d }
  | .wrregCfgFs d => s.phase = .idle ∧ t = { s with cfgFs := d }
  | .wrregCfgBaud d => s.phase = .idle ∧ t = { s with cfgBaud := d }
  | .wrregCfgFc d => s.phase = .idle ∧ t = { s with cfgFc := d }
  | .wrregCfgAngle d => s.phase = .idle ∧ t = { s with cfgAngle := d }
  | .wrregTblRows d => s.phase = .idle ∧ t = { s with tblRows := d }
  | .wrregTblCols d => s.phase = .idle ∧ t = { s with tblCols := d }
  | .push b => s.phase = .run ∧ pushBit (dataBit b) s = .ok t
  | .emit idx => s.phase = .run ∧ emitSymbol idx s = .ok t
  | .reset => t = s.resetEvent
  | .cmdUndef _ => False
  | .illegalStatus _ => False
  | .illegalErrExpect _ => False
  | .illegalErrActual _ => False
  | .illegalNsym _ => False
  | .illegalSps _ => False
  | .illegalRxbit _ => False
  | .illegalBitsacc _ => False
  | .illegalReserved15 _ => False

theorem writeConfig_next {put : State → State} {s t : State} (h : writeConfig put s = .next t) :
    (s.phase = .fault ∧ t = s) ∨ (s.phase ≠ .fault ∧ ∃ c e a, c ≠ Cause.none ∧ t = s.raise c e a) ∨
      (s.phase = .idle ∧ t = put s) := by
  rcases inPhase_next h with h | ⟨_, hn, ho⟩ | ⟨hf, _, ht⟩
  · exact .inl h
  · exact .inr (.inr ⟨by simpa using hn, by simpa using ho.symm⟩)
  · exact .inr (.inl ⟨hf, _, _, _, by simp, ht⟩)

theorem illegalWrite_next' {n d : Word} {s t : State} (h : illegalWrite n d s = .next t) :
    (s.phase = .fault ∧ t = s) ∨ (s.phase ≠ .fault ∧ ∃ c e a, c ≠ Cause.none ∧ t = s.raise c e a) ∨ False := by
  rcases illegalWrite_next h with h | ⟨hf, ht⟩
  · exact .inl h
  · exact .inr (.inl ⟨hf, _, _, _, by simp, ht⟩)

/-- All that an operation can do when it goes on: nothing, in P_FAULT; fault entry, elsewhere; or its effect. -/
theorem exec_next {i : Instr} {s t : State} (h : exec i s = .next t) :
    (s.phase = .fault ∧ t = s) ∨ (s.phase ≠ .fault ∧ ∃ c e a, c ≠ Cause.none ∧ t = s.raise c e a) ∨
      Effect i s t := by
  cases i with
  | rdreg n d => exact .inr (.inr (by simpa [exec, execRdreg, Effect] using h.symm))
  | reset => exact .inr (.inr (by simpa [exec, execReset, Effect] using h.symm))
  | bcon =>
    unfold exec execBcon at h
    rcases inPhase_next h with h | ⟨hf, hn, ho⟩ | ⟨hf, _, ht⟩
    · exact .inl h
    · have ho : buildConstellation Config.num s = t := by simpa using ho
      rcases buildConstellation_cases Config.num s with ⟨_, e⟩ | ⟨_, _, _, e⟩ | ⟨h1, h2, h3, e⟩
      · exact .inr (.inl ⟨hf, _, _, _, by simp, ho ▸ e⟩)
      · exact .inr (.inl ⟨hf, _, _, _, by simp, ho ▸ e⟩)
      · exact .inr (.inr ⟨by simpa using hn, h1, h2, h3, ho ▸ e⟩)
    · exact .inr (.inl ⟨hf, _, _, _, by simp, ht⟩)
  | btab =>
    unfold exec execBtab at h
    rcases inPhase_next h with h | ⟨hf, hn, ho⟩ | ⟨hf, _, ht⟩
    · exact .inl h
    · have ho := finish_eq_next.mp ho
      rcases buildTables_cases Config.num s with
        ⟨_, e⟩ | ⟨_, _, e⟩ | ⟨_, _, _, e⟩ | ⟨_, _, _, _, e⟩ | ⟨_, _, _, _, _, e⟩ | ⟨h1, h2, h3, h4, h5, e⟩
      case inr.inr.inr.inr.inr => exact .inr (.inr ⟨by simpa using hn, h1, h2, h3, h4, h5, e ▸ ho⟩)
      all_goals
        rw [e, Except.ok.injEq] at ho
        exact .inr (.inl ⟨hf, _, _, _, by simp, ho.symm⟩)
    · exact .inr (.inl ⟨hf, _, _, _, by simp, ht⟩)
  | openSession =>
    unfold exec execOpenSession at h
    rcases inPhase_next h with h | ⟨_, hn, ho⟩ | ⟨hf, _, ht⟩
    · exact .inl h
    · exact .inr (.inr ⟨by simpa using hn, by simpa using ho.symm⟩)
    · exact .inr (.inl ⟨hf, _, _, _, by simp, ht⟩)
  | eoi =>
    unfold exec execEoi at h
    rcases inPhase_next h with h | ⟨_, hn, ho⟩ | ⟨hf, _, ht⟩
    · exact .inl h
    · exact .inr (.inr ⟨by simpa using hn, by simpa using ho.symm⟩)
    · exact .inr (.inl ⟨hf, _, _, _, by simp, ht⟩)
  | push b =>
    unfold exec execPush at h
    rcases inPhase_next h with h | ⟨_, hn, ho⟩ | ⟨hf, _, ht⟩
    · exact .inl h
    · exact .inr (.inr ⟨by simpa using hn, finish_eq_next.mp ho⟩)
    · exact .inr (.inl ⟨hf, _, _, _, by simp, ht⟩)
  | emit idx =>
    unfold exec execEmit at h
    rcases inPhase_next h with h | ⟨_, hn, ho⟩ | ⟨hf, _, ht⟩
    · exact .inl h
    · exact .inr (.inr ⟨by simpa using hn, finish_eq_next.mp ho⟩)
    · exact .inr (.inl ⟨hf, _, _, _, by simp, ht⟩)
  | wrregCfgM d => unfold exec execWrregCfgM at h; exact writeConfig_next h
  | wrregCfgFs d => unfold exec execWrregCfgFs at h; exact writeConfig_next h
  | wrregCfgBaud d => unfold exec execWrregCfgBaud at h; exact writeConfig_next h
  | wrregCfgFc d => unfold exec execWrregCfgFc at h; exact writeConfig_next h
  | wrregCfgAngle d => unfold exec execWrregCfgAngle at h; exact writeConfig_next h
  | wrregTblRows d => unfold exec execWrregTblRows at h; exact writeConfig_next h
  | wrregTblCols d => unfold exec execWrregTblCols at h; exact writeConfig_next h
  | cmdUndef d => unfold exec execCmdUndef at h; exact illegalWrite_next' h
  | illegalStatus d => unfold exec execIllegalStatus at h; exact illegalWrite_next' h
  | illegalErrExpect d => unfold exec execIllegalErrExpect at h; exact illegalWrite_next' h
  | illegalErrActual d => unfold exec execIllegalErrActual at h; exact illegalWrite_next' h
  | illegalNsym d => unfold exec execIllegalNsym at h; exact illegalWrite_next' h
  | illegalSps d => unfold exec execIllegalSps at h; exact illegalWrite_next' h
  | illegalRxbit d => unfold exec execIllegalRxbit at h; exact illegalWrite_next' h
  | illegalBitsacc d => unfold exec execIllegalBitsacc at h; exact illegalWrite_next' h
  | illegalReserved15 d => unfold exec execIllegalReserved15 at h; exact illegalWrite_next' h

end Sys2Proof.Machine
end

