-- ==== Sys2Proof/Laws/Numerics.lean ====
section
/-! SUPPORT. Laws of the float format (00_scope.md R15): every multiple of 2^-24 in [-1, 1] is the value of a finite
float, so every real number there has one within 2^-25; the finite floats are ordered as their patterns are, so every real
number has a nearest one (R11) and some numerics record is `Num_ref`. -/

namespace Sys2Proof.Machine

/-- The float `(-1)^sign * k / 2^24`, for `0 < k < 2^24`. -/
def gridFloat (sign : BitVec 1) (k : Nat) : F32 where
  sign := sign
  exp := BitVec.ofNat 8 (k.log2 + 103)
  frac := BitVec.ofNat 23 (k * 2 ^ (23 - k.log2) - 2 ^ 23)

/-- A float whose scaled significand is a multiple of 2^125. -/
theorem floatValue_of_scaled {f : F32} {n : Nat} (h : significand f * 2 ^ scaleExp f = n * 2 ^ 125) :
    floatValue f = (if f.sign = 1#1 then -1 else 1) * n / 2 ^ 24 := by
  rw [floatValue, h]
  push_cast
  generalize (if f.sign = 1#1 then (-1 : ℚ) else 1) = c
  norm_num
  ring

theorem gridFloat_spec (sign : BitVec 1) {k : Nat} (h0 : k ≠ 0) (h : k < 2 ^ 24) :
    isFinite (gridFloat sign k) = true ∧
      floatValue (gridFloat sign k) = (if sign = 1#1 then -1 else 1) * k / 2 ^ 24 := by
  have he : k.log2 < 24 := (Nat.log2_lt h0).mpr h
  have h1 : 2 ^ k.log2 ≤ k := Nat.log2_self_le h0
  have h2 : k < 2 ^ (k.log2 + 1) := Nat.lt_log2_self
  have hp : 2 ^ k.log2 * 2 ^ (23 - k.log2) = 2 ^ 23 := by rw [← Nat.pow_add]; congr 1; omega
  have hlo : 2 ^ 23 ≤ k * 2 ^ (23 - k.log2) := hp ▸ Nat.mul_le_mul_right _ h1
  have hhi : k * 2 ^ (23 - k.log2) < 2 ^ 24 := by
    have := Nat.mul_lt_mul_of_pos_right h2 (Nat.two_pow_pos (23 - k.log2))
    rw [Nat.pow_succ, Nat.mul_right_comm, hp] at this
    omega
  have hx : (BitVec.ofNat 8 (k.log2 + 103)).toNat = k.log2 + 103 := by
    rw [BitVec.toNat_ofNat]; exact Nat.mod_eq_of_lt (by omega)
  have hf : (BitVec.ofNat 23 (k * 2 ^ (23 - k.log2) - 2 ^ 23)).toNat = k * 2 ^ (23 - k.log2) - 2 ^ 23 := by
    rw [BitVec.toNat_ofNat]; exact Nat.mod_eq_of_lt (by omega)
  constructor
  · simp only [isFinite, gridFloat, bne_iff_ne, ne_eq]
    intro hc
    have := congrArg BitVec.toNat hc
    rw [hx] at this
    simp at this
    omega
  · have hs : significand (gridFloat sign k) = k * 2 ^ (23 - k.log2) := by
      simp only [significand, gridFloat, hx, hf]
      rw [if_neg (by omega)]
      omega
    refine floatValue_of_scaled ?_
    rw [hs]
    simp only [scaleExp, gridFloat, hx]
    rw [Nat.mul_assoc, ← Nat.pow_add, show 23 - k.log2 + (k.log2 + 103 - 1) = 125 by omega]

/-- Every multiple of 2^-24 in [0, 1], with either sign, is the value of a finite float. -/
theorem exists_float_of_grid (sign : BitVec 1) {k : Nat} (h : k ≤ 2 ^ 24) :
    ∃ g : F32, isFinite g = true ∧ floatValue g = (if sign = 1#1 then -1 else 1) * k / 2 ^ 24 := by
  rcases Nat.eq_zero_or_pos k with rfl | h0
  · exact ⟨⟨sign, 0, 0⟩, by simp [isFinite], by simp [floatValue, significand]⟩
  rcases Nat.lt_or_ge k (2 ^ 24) with h1 | h1
  · exact ⟨gridFloat sign k, gridFloat_spec sign (by omega) h1⟩
  · have : k = 2 ^ 24 := by omega
    subst this
    refine ⟨⟨sign, 127, 0⟩, by simp [isFinite], floatValue_of_scaled (f := ⟨sign, 127, 0⟩) ?_⟩
    have h2 : significand ⟨sign, 127, 0⟩ = 2 ^ 23 := by simp [significand]
    have h3 : scaleExp ⟨sign, 127, 0⟩ = 126 := by simp [scaleExp]
    rw [h2, h3, ← Nat.pow_add, ← Nat.pow_add]

/-- Every real number in [-1, 1] has a finite float within 2^-25. -/
theorem exists_float_near {x : ℝ} (h : |x| ≤ 1) :
    ∃ g : F32, isFinite g = true ∧ |(floatValue g : ℝ) - x| ≤ 1 / 2 ^ 25 := by
  have hy : 0 ≤ |x| * 2 ^ 24 + 1 / 2 := by positivity
  obtain ⟨k, hk⟩ : ∃ k : ℕ, k = ⌊|x| * 2 ^ 24 + 1 / 2⌋₊ := ⟨_, rfl⟩
  have hlo : (k : ℝ) ≤ |x| * 2 ^ 24 + 1 / 2 := hk ▸ Nat.floor_le hy
  have hhi : |x| * 2 ^ 24 + 1 / 2 < k + 1 := hk ▸ Nat.lt_floor_add_one _
  have hmax : k ≤ 2 ^ 24 := by
    have : (k : ℝ) < 2 ^ 24 + 1 := by nlinarith
    have : k < 2 ^ 24 + 1 := by exact_mod_cast this
    omega
  have habs : |(k : ℝ) / 2 ^ 24 - (|x|)| ≤ 1 / 2 ^ 25 := by
    rw [abs_le]
    constructor <;> norm_num at * <;> linarith
  rcases le_or_gt 0 x with h0 | h0
  · obtain ⟨g, hg, e⟩ := exists_float_of_grid 0#1 hmax
    refine ⟨g, hg, ?_⟩
    rw [e]
    rw [abs_of_nonneg h0] at habs
    simpa using habs
  · obtain ⟨g, hg, e⟩ := exists_float_of_grid 1#1 hmax
    refine ⟨g, hg, ?_⟩
    rw [e]
    rw [abs_of_neg h0] at habs
    rw [← abs_neg]
    convert habs using 2
    push_cast
    simp
    ring

/-! ### The order of the finite floats -/

/-- The pattern of a float without its sign. -/
def magCode (f : F32) : Nat := f.exp.toNat * 2 ^ 23 + f.frac.toNat

/-- What the pattern `n` without sign stands for, scaled by 2^149. -/
def magValue (n : Nat) : Nat :=
  (if n / 2 ^ 23 = 0 then n % 2 ^ 23 else 2 ^ 23 + n % 2 ^ 23) * 2 ^ (n / 2 ^ 23 - 1)

theorem magValue_magCode (f : F32) : significand f * 2 ^ scaleExp f = magValue (magCode f) := by
  have hf := f.frac.isLt
  have h1 : magCode f / 2 ^ 23 = f.exp.toNat := by unfold magCode; omega
  have h2 : magCode f % 2 ^ 23 = f.frac.toNat := by unfold magCode; omega
  rw [magValue, h1, h2]
  rfl

theorem magValue_lt_succ (n : Nat) : magValue n < magValue (n + 1) := by
  unfold magValue
  rcases Nat.lt_or_ge (n % 2 ^ 23 + 1) (2 ^ 23) with h | h
  · rw [show (n + 1) / 2 ^ 23 = n / 2 ^ 23 by omega, show (n + 1) % 2 ^ 23 = n % 2 ^ 23 + 1 by omega]
    refine Nat.mul_lt_mul_of_pos_right ?_ (Nat.two_pow_pos _)
    split <;> omega
  · rw [show (n + 1) / 2 ^ 23 = n / 2 ^ 23 + 1 by omega, show (n + 1) % 2 ^ 23 = 0 by omega,
      show n % 2 ^ 23 = 2 ^ 23 - 1 by omega]
    generalize n / 2 ^ 23 = e
    cases e with
    | zero => simp
    | succ e =>
      simp only [Nat.succ_ne_zero, if_false, Nat.add_sub_cancel, Nat.pow_succ 2 e]
      have := Nat.two_pow_pos e
      generalize 2 ^ e = p at *
      omega

/-- What the signed pattern `z` stands for, scaled by 2^149. -/
def keyValue (z : ℤ) : ℤ := if 0 ≤ z then magValue z.toNat else -magValue (-z).toNat

theorem keyValue_strictMono : StrictMono keyValue := by
  refine strictMono_int_of_lt_succ fun z => ?_
  unfold keyValue
  rcases lt_trichotomy z (-1) with h | rfl | h
  · rw [if_neg (by omega), if_neg (by omega), show (-z).toNat = (-(z + 1)).toNat + 1 by omega]
    have := magValue_lt_succ (-(z + 1)).toNat
    omega
  · decide
  · rw [if_pos (by omega), if_pos (by omega), show (z + 1).toNat = z.toNat + 1 by omega]
    have := magValue_lt_succ z.toNat
    omega

/-- The signed pattern of a float. -/
def floatKey (f : F32) : ℤ := if f.sign = 1#1 then -magCode f else magCode f

theorem floatValue_eq_key (f : F32) : floatValue f = (keyValue (floatKey f) : ℚ) / 2 ^ 149 := by
  rw [floatValue, magValue_magCode]
  congr 1
  unfold floatKey keyValue
  split
  · rcases Nat.eq_zero_or_pos (magCode f) with h | h
    · simp [h, magValue]
    · rw [if_neg (by omega), show (- -(magCode f : ℤ)).toNat = magCode f by omega]
      push_cast
      ring
  · rw [if_pos (by omega), show (magCode f : ℤ).toNat = magCode f by omega]
    push_cast
    ring

theorem floatValue_lt_iff {f g : F32} : floatValue f < floatValue g ↔ floatKey f < floatKey g := by
  rw [floatValue_eq_key, floatValue_eq_key, div_lt_div_iff_of_pos_right (by positivity), Int.cast_lt,
    keyValue_strictMono.lt_iff_lt]

/-- The patterns of the finite floats. -/
theorem magCode_lt {f : F32} (h : isFinite f = true) : magCode f < 255 * 2 ^ 23 := by
  have h1 : f.exp ≠ 255#8 := by simpa [isFinite] using h
  have h2 : f.exp.toNat ≠ 255 := fun hc => h1 (BitVec.eq_of_toNat_eq (by simpa using hc))
  have h3 := f.exp.isLt
  have h4 := f.frac.isLt
  unfold magCode
  omega

theorem exists_float_of_key {z : ℤ} (h : z.natAbs < 255 * 2 ^ 23) :
    ∃ f : F32, isFinite f = true ∧ floatKey f = z := by
  have hx : (BitVec.ofNat 8 (z.natAbs / 2 ^ 23)).toNat = z.natAbs / 2 ^ 23 := by
    rw [BitVec.toNat_ofNat]
    exact Nat.mod_eq_of_lt (by omega)
  have hf : (BitVec.ofNat 23 z.natAbs).toNat = z.natAbs % 2 ^ 23 := BitVec.toNat_ofNat ..
  have hc : ∀ s, magCode ⟨s, BitVec.ofNat 8 (z.natAbs / 2 ^ 23), BitVec.ofNat 23 z.natAbs⟩ = z.natAbs := fun s => by
    simp only [magCode, hx, hf]
    omega
  have hfin : ∀ s, isFinite ⟨s, BitVec.ofNat 8 (z.natAbs / 2 ^ 23), BitVec.ofNat 23 z.natAbs⟩ = true := fun s => by
    simp only [isFinite, bne_iff_ne, ne_eq]
    intro he
    have := congrArg BitVec.toNat he
    rw [hx] at this
    simp at this
    omega
  rcases le_or_gt 0 z with h0 | h0
  · refine ⟨_, hfin 0#1, ?_⟩
    rw [floatKey, hc, if_neg (by simp)]
    omega
  · refine ⟨_, hfin 1#1, ?_⟩
    rw [floatKey, hc, if_pos rfl]
    omega

theorem floatKey_odd {f : F32} (h : f.frac.getLsbD 0 = true) : floatKey f % 2 = 1 := by
  have h1 : f.frac.toNat % 2 = 1 := by
    simpa [BitVec.getLsbD, Nat.testBit_zero] using h
  have h2 : magCode f % 2 = 1 := by unfold magCode; omega
  unfold floatKey
  split <;> omega

theorem floatKey_natAbs (f : F32) : (floatKey f).natAbs = magCode f := by
  unfold floatKey
  split <;> omega

/-- Between two finite floats that both have an odd last bit lies another. -/
theorem exists_float_between {f g : F32} (hf : isFinite f = true) (hg : isFinite g = true)
    (of : f.frac.getLsbD 0 = true) (og : g.frac.getLsbD 0 = true) (h : floatValue f < floatValue g) :
    ∃ e : F32, isFinite e = true ∧ floatValue f < floatValue e ∧ floatValue e < floatValue g := by
  rw [floatValue_lt_iff] at h
  have h1 := floatKey_odd of
  have h2 := floatKey_odd og
  have h3 := magCode_lt hf
  have h4 := magCode_lt hg
  rw [← floatKey_natAbs] at h3 h4
  obtain ⟨e, he, hk⟩ := exists_float_of_key (z := floatKey f + 1) (by omega)
  exact ⟨e, he, floatValue_lt_iff.mpr (by omega), floatValue_lt_iff.mpr (by omega)⟩

/-! ### Nearest floats exist -/

theorem finite_floats : Finite F32 := by
  refine Finite.of_injective (fun f : F32 => (f.sign.toFin, f.exp.toFin, f.frac.toFin)) fun f g h => ?_
  cases f
  cases g
  simp only [Prod.mk.injEq] at h
  simp only [F32.mk.injEq]
  exact ⟨BitVec.eq_of_toFin_eq h.1, BitVec.eq_of_toFin_eq h.2.1, BitVec.eq_of_toFin_eq h.2.2⟩

/-- Two floats at the same distance from `x` with different values lie on either side of it. -/
theorem closer_between {x a b e : ℝ} (h : |a - x| = |b - x|) (h1 : a < e) (h2 : e < b) : |e - x| < |a - x| := by
  have hx : x = (a + b) / 2 := by
    rcases abs_eq_abs.mp h with h | h <;> linarith
  rw [hx, abs_lt]
  rw [show a - (a + b) / 2 = -((b - a) / 2) by ring, abs_neg, abs_of_pos (by linarith)]
  constructor <;> linarith

/-- Every real number has a nearest finite float (00_scope.md R11). -/
theorem exists_isNearest (x : ℝ) : ∃ f : F32, IsNearest x f := by
  rcases eq_or_ne x 0 with rfl | hx
  · have hz : floatValue (dec32 0#32) = 0 := by simp [floatValue, significand, dec32]
    refine ⟨dec32 0#32, by decide, fun _ => rfl, fun g _ => ⟨by simp [hz], fun _ => .inr (by decide)⟩⟩
  have := finite_floats
  obtain ⟨f, hf, hmin⟩ := Set.exists_min_image {f : F32 | isFinite f = true}
    (fun f => |(floatValue f : ℝ) - x|) (Set.toFinite _) ⟨dec32 0#32, by decide⟩
  by_cases he : ∃ g, isFinite g = true ∧ |(floatValue g : ℝ) - x| = |(floatValue f : ℝ) - x| ∧
      g.frac.getLsbD 0 = false
  · obtain ⟨g, hg, hd, hb⟩ := he
    exact ⟨g, hg, fun h => absurd h hx, fun e hfe => ⟨hd ▸ hmin e hfe, fun _ => .inr hb⟩⟩
  · have hodd : ∀ g, isFinite g = true → |(floatValue g : ℝ) - x| = |(floatValue f : ℝ) - x| →
        g.frac.getLsbD 0 = true := fun g hg hd => by
      by_contra hb
      exact he ⟨g, hg, hd, by simpa using hb⟩
    refine ⟨f, hf, fun h => absurd h hx, fun g hg => ⟨hmin g hg, fun hd => .inl ?_⟩⟩
    rcases lt_trichotomy (floatValue g) (floatValue f) with h | h | h
    · obtain ⟨e, hfe, h1, h2⟩ := exists_float_between hg hf (hodd g hg hd) (hodd f hf rfl) h
      have := closer_between hd (Rat.cast_lt.mpr h1) (Rat.cast_lt.mpr h2)
      exact absurd (hmin e hfe) (not_le.mpr (hd ▸ this))
    · exact h
    · obtain ⟨e, hfe, h1, h2⟩ := exists_float_between hf hg (hodd f hf rfl) (hodd g hg hd) h
      have := closer_between hd.symm (Rat.cast_lt.mpr h1) (Rat.cast_lt.mpr h2)
      exact absurd (hmin e hfe) (not_le.mpr this)

/-- Some numerics record is the reference instantiation. -/
theorem exists_isReference : ∃ n : Sys2Proof.Num, IsReference n := by
  choose near h using exists_isNearest
  refine ⟨{
    angle := fun a0 k M => near (idealAngle a0 k M)
    deg2rad := fun a => near (floatValue a * Real.pi / 180)
    cphase := fun fc i fs => near (2 * Real.pi * fc.toNat * i / fs.toNat)
    polar := fun r t => ⟨near (floatValue r * Real.cos (floatValue t)), near (floatValue r * Real.sin (floatValue t))⟩
    cmul := fun a b =>
      ⟨near ((floatValue a.re * floatValue b.re - floatValue a.im * floatValue b.im : ℚ) : ℝ),
        near ((floatValue a.re * floatValue b.im + floatValue a.im * floatValue b.re : ℚ) : ℝ)⟩ },
    near, h, ⟨fun _ _ _ _ => rfl, fun _ _ => rfl, fun _ _ _ _ => rfl, fun _ _ _ _ => rfl, fun _ _ _ _ => rfl,
      fun a b _ => ?_⟩⟩
  simp only [mul_comm (floatValue b.re), mul_comm (floatValue b.im), add_comm (floatValue a.im * floatValue b.re)]

/-! ### A float by its value -/

/-- A float is its signed pattern, unless it is a zero. -/
theorem eq_of_floatKey_eq {f g : F32} (h : floatKey f = floatKey g) (h0 : floatKey f ≠ 0) : f = g := by
  have hm : magCode f = magCode g := by rw [← floatKey_natAbs, ← floatKey_natAbs, h]
  have hs : f.sign = 1#1 ↔ g.sign = 1#1 := by
    unfold floatKey at h h0
    by_cases h1 : f.sign = 1#1 <;> by_cases h2 : g.sign = 1#1 <;> simp only [h1, h2, if_true, if_false] at * <;> omega
  have h1 := f.frac.isLt
  have h2 := g.frac.isLt
  have h3 : f.exp.toNat = g.exp.toNat ∧ f.frac.toNat = g.frac.toNat := by
    unfold magCode at hm
    omega
  obtain ⟨a, b, c⟩ := f
  obtain ⟨a', b', c'⟩ := g
  simp only [F32.mk.injEq]
  refine ⟨?_, BitVec.eq_of_toNat_eq h3.1, BitVec.eq_of_toNat_eq h3.2⟩
  exact (by decide : ∀ x y : BitVec 1, (x = 1#1 ↔ y = 1#1) → x = y) _ _ hs

/-- Two floats of one value other than 0 are one float. -/
theorem eq_of_floatValue_eq {f g : F32} (h : floatValue f = floatValue g) (h0 : floatValue f ≠ 0) : f = g := by
  have hk : floatKey f = floatKey g := by
    rcases lt_trichotomy (floatKey f) (floatKey g) with hl | hl | hl
    · exact absurd h (floatValue_lt_iff.mpr hl).ne
    · exact hl
    · exact absurd h (floatValue_lt_iff.mpr hl).ne'
  refine eq_of_floatKey_eq hk fun hz => h0 ?_
  rw [floatValue_eq_key, hz]
  simp [keyValue, magValue]

/-- The float of a representable number is unique. -/
theorem IsFloatOf.unique {x : ℚ} {f g : F32} (hf : IsFloatOf x f) (hg : IsFloatOf x g) : f = g := by
  by_cases h : x = 0
  · rw [hf.2.2 h, hg.2.2 h]
  · exact eq_of_floatValue_eq (hf.2.1.trans hg.2.1.symm) (hf.2.1 ▸ h)

/-- The value of a finite float is representable. -/
theorem exists_isFloatOf {f : F32} (hf : isFinite f = true) : ∃ g, IsFloatOf (floatValue f) g := by
  by_cases h : floatValue f = 0
  · exact ⟨dec32 0#32, by decide, by rw [h]; simp [floatValue, significand, dec32], fun _ => rfl⟩
  · exact ⟨f, hf, rfl, fun h0 => absurd h0 h⟩

end Sys2Proof.Machine
end

