-- ==== Sys2Proof/Laws/PerInstr.lean ====
section
/-! SUPPORT. One lemma per operation: its encoding has the format that the operation table gives it. -/

namespace Sys2Proof.Laws

/-- The format of a packet: a REG access, an input byte, or no encoding (30_encoding.md R70, R85). -/
def packetFormat : Packet → Format
  | .reg _ => .reg
  | .in8 _ => .in8
  | .reset => .none

/-- An operation's packet, where it has one, has the operation's format (30_encoding.md R70, R78). -/
def EncodeFormat.Statement (i : Instr) : Prop := ∀ p, encode i = some p → packetFormat p = i.format

theorem EncodeFormat.rdreg (n : BitVec 4) (d : Word) : EncodeFormat.Statement (.rdreg n d) := by rintro p ⟨⟩; rfl

theorem EncodeFormat.bcon : EncodeFormat.Statement .bcon := by rintro p ⟨⟩; rfl

theorem EncodeFormat.btab : EncodeFormat.Statement .btab := by rintro p ⟨⟩; rfl

theorem EncodeFormat.openSession : EncodeFormat.Statement .openSession := by rintro p ⟨⟩; rfl

theorem EncodeFormat.eoi : EncodeFormat.Statement .eoi := by rintro p ⟨⟩; rfl

theorem EncodeFormat.cmdUndef (d : Word) : EncodeFormat.Statement (.cmdUndef d) := by rintro p ⟨⟩; rfl

theorem EncodeFormat.wrregCfgM (d : Word) : EncodeFormat.Statement (.wrregCfgM d) := by rintro p ⟨⟩; rfl

theorem EncodeFormat.wrregCfgFs (d : Word) : EncodeFormat.Statement (.wrregCfgFs d) := by rintro p ⟨⟩; rfl

theorem EncodeFormat.wrregCfgBaud (d : Word) : EncodeFormat.Statement (.wrregCfgBaud d) := by rintro p ⟨⟩; rfl

theorem EncodeFormat.wrregCfgFc (d : Word) : EncodeFormat.Statement (.wrregCfgFc d) := by rintro p ⟨⟩; rfl

theorem EncodeFormat.wrregCfgAngle (d : Word) : EncodeFormat.Statement (.wrregCfgAngle d) := by rintro p ⟨⟩; rfl

theorem EncodeFormat.wrregTblRows (d : Word) : EncodeFormat.Statement (.wrregTblRows d) := by rintro p ⟨⟩; rfl

theorem EncodeFormat.wrregTblCols (d : Word) : EncodeFormat.Statement (.wrregTblCols d) := by rintro p ⟨⟩; rfl

theorem EncodeFormat.illegalStatus (d : Word) : EncodeFormat.Statement (.illegalStatus d) := by rintro p ⟨⟩; rfl

theorem EncodeFormat.illegalErrExpect (d : Word) : EncodeFormat.Statement (.illegalErrExpect d) := by rintro p ⟨⟩; rfl

theorem EncodeFormat.illegalErrActual (d : Word) : EncodeFormat.Statement (.illegalErrActual d) := by rintro p ⟨⟩; rfl

theorem EncodeFormat.illegalNsym (d : Word) : EncodeFormat.Statement (.illegalNsym d) := by rintro p ⟨⟩; rfl

theorem EncodeFormat.illegalSps (d : Word) : EncodeFormat.Statement (.illegalSps d) := by rintro p ⟨⟩; rfl

theorem EncodeFormat.illegalRxbit (d : Word) : EncodeFormat.Statement (.illegalRxbit d) := by rintro p ⟨⟩; rfl

theorem EncodeFormat.illegalBitsacc (d : Word) : EncodeFormat.Statement (.illegalBitsacc d) := by rintro p ⟨⟩; rfl

theorem EncodeFormat.illegalReserved15 (d : Word) : EncodeFormat.Statement (.illegalReserved15 d) := by rintro p ⟨⟩; rfl

theorem EncodeFormat.push (byte : Byte) : EncodeFormat.Statement (.push byte) := by rintro p ⟨⟩; rfl

theorem EncodeFormat.emit (idx : BitVec Config.mMax) : EncodeFormat.Statement (.emit idx) := by rintro p ⟨⟩

theorem EncodeFormat.reset : EncodeFormat.Statement .reset := by rintro p ⟨⟩; rfl

end Sys2Proof.Laws
end

