-- ==== Sys2Proof/Laws/Session.lean ====
section
/-! SUPPORT. Laws of a session: what EMIT, PUSH, BTAB and OPEN leave alone, the arithmetic of the accumulator, and what
the parts of the invariant depend on. -/

namespace Sys2Proof.Machine

/-! ### Frames -/

/-- What `t` shares with `s` where an operation has neither built anything nor written a register of the host. -/
structure SameSetup (s t : State) : Prop where
  cfgM : t.cfgM = s.cfgM
  cfgFs : t.cfgFs = s.cfgFs
  cfgBaud : t.cfgBaud = s.cfgBaud
  cfgFc : t.cfgFc = s.cfgFc
  cfgAngle : t.cfgAngle = s.cfgAngle
  tblRows : t.tblRows = s.tblRows
  tblCols : t.tblCols = s.tblCols
  nsym : t.nsym = s.nsym
  sps : t.sps = s.sps
  const : t.const = s.const
  tmpl : t.tmpl = s.tmpl
  tbl : t.tbl = s.tbl

/-- What EMIT leaves alone, and that the histories only grow. -/
theorem emitSymbol_frame {idx : BitVec Config.mMax} {s t : State} (h : emitSymbol idx s = .ok t) :
    (t.phase = s.phase ∨ t.phase = .fault) ∧
      (t.phase ≠ .fault → t.cause = s.cause ∧ t.errExpect = s.errExpect ∧ t.errActual = s.errActual) ∧
      SameSetup s t ∧ s.out <+: t.out ∧ s.sink <+: t.sink ∧ s.syms <+: t.syms := by
  obtain ⟨row, hl, _, rfl⟩ := emitSymbol_inv h
  rcases emitRow_cases (s := s) (idx := idx) hl with ⟨_, e⟩ | ⟨_, e⟩ <;> rw [e] <;>
    exact ⟨by simp, by simp, ⟨rfl, rfl, rfl, rfl, rfl, rfl, rfl, rfl, rfl, rfl, rfl, rfl⟩, by simp, by simp, by simp⟩

/-- What PUSH leaves alone, and that the histories only grow. -/
theorem pushBit_frame {b : BitVec 1} {s t : State} (h : pushBit b s = .ok t) :
    (t.phase = s.phase ∨ t.phase = .fault) ∧
      (t.phase ≠ .fault → t.cause = s.cause ∧ t.errExpect = s.errExpect ∧ t.errActual = s.errActual) ∧
      SameSetup s t ∧ s.out <+: t.out ∧ s.sink <+: t.sink ∧ s.syms <+: t.syms := by
  rcases pushBit_cases h with ⟨_, rfl⟩ | ⟨_, u, hu, rfl⟩
  · exact ⟨by simp, by simp, ⟨rfl, rfl, rfl, rfl, rfl, rfl, rfl, rfl, rfl, rfl, rfl, rfl⟩, by simp, by simp, by simp⟩
  · obtain ⟨h1, h2, ⟨a1, a2, a3, a4, a5, a6, a7, a8, a9, a10, a11, a12⟩, h4, h5, h6⟩ := emitSymbol_frame hu
    split
    · exact ⟨h1, h2, ⟨a1, a2, a3, a4, a5, a6, a7, a8, a9, a10, a11, a12⟩, h4, h5, h6⟩
    · exact ⟨h1, h2, ⟨a1, a2, a3, a4, a5, a6, a7, a8, a9, a10, a11, a12⟩, h4, h5, h6⟩

/-- What BTAB leaves alone when it fills its tables. -/
theorem fillTables_frame {num : Sys2Proof.Num} {n : Nat} {s t : State} (h : fillTables num n s = .ok t) :
    ∃ a b, t = { s with tmpl := a, tbl := b, sps := BitVec.ofNat 32 n, phase := .ready } := by
  unfold fillTables at h
  simp only at h
  split at h
  · simp at h
  · simp only [Except.ok.injEq] at h
    exact ⟨_, _, h.symm⟩

/-- The two outcomes of OPEN past its phase check. -/
theorem beginSession_cases (s : State) :
    ((beginSession s).phase = .run ∧ (beginSession s).cause = s.cause ∧
      (beginSession s).errExpect = s.errExpect ∧ (beginSession s).errActual = s.errActual) ∨
        (beginSession s).phase = .fault := by
  unfold beginSession
  simp only
  split <;> simp

theorem beginSession_frame (s : State) : SameSetup s (beginSession s) := by
  unfold beginSession
  simp only
  split <;> exact ⟨rfl, rfl, rfl, rfl, rfl, rfl, rfl, rfl, rfl, rfl, rfl, rfl⟩

/-! ### Decoding and running -/

/-- No packet stands for an EMIT (30_encoding.md R85). -/
theorem decode_ne_emit (p : Packet) (x : BitVec Config.mMax) : decode p ≠ .emit x := by
  cases p with
  | reg w =>
    unfold decode decodeWrite decodeCommand
    simp only
    split
    · simp
    · split <;> (try simp)
      split
      · simp
      split
      · simp
      split
      · simp
      split <;> simp
  | in8 b => simp [decode]
  | reset => simp [decode]

end Sys2Proof.Machine

namespace Sys2Proof.Safety

open Sys2Proof.Machine

/-! ### Bit sequences -/

theorem bitsValue_append (l : List (BitVec 1)) (b : BitVec 1) :
    bitsValue (l ++ [b]) = 2 * bitsValue l + b.toNat := by simp [bitsValue]

theorem bitsValue_lt (l : List (BitVec 1)) : bitsValue l < 2 ^ l.length := by
  induction l using List.reverseRecOn with
  | nil => simp [bitsValue]
  | append_singleton l b ih =>
    rw [bitsValue_append]
    simp only [List.length_append, List.length_singleton, Nat.pow_succ]
    have := b.isLt
    omega

theorem partialOf_length (m : Nat) (l : List (BitVec 1)) : (partialOf m l).length = l.length % m := by
  unfold partialOf
  rw [List.length_drop]
  have := Nat.div_add_mod l.length m
  rw [Nat.mul_comm] at this
  omega

/-- One more bit that completes no symbol. -/
theorem div_mod_stay {n m : Nat} (hm : 0 < m) (h : n % m + 1 ≠ m) :
    (n + 1) / m = n / m ∧ (n + 1) % m = n % m + 1 := by
  have h1 := Nat.div_add_mod n m
  have h2 := Nat.mod_lt n hm
  have : n + 1 = m * (n / m) + (n % m + 1) := by omega
  constructor
  · rw [this, Nat.mul_add_div hm, Nat.div_eq_of_lt (show n % m + 1 < m by omega)]
    rfl
  · rw [this, Nat.mul_add_mod, Nat.mod_eq_of_lt (show n % m + 1 < m by omega)]

/-- One more bit that completes a symbol. -/
theorem div_mod_full {n m : Nat} (hm : 0 < m) (h : n % m + 1 = m) :
    (n + 1) / m = n / m + 1 ∧ (n + 1) % m = 0 := by
  have h1 := Nat.div_add_mod n m
  have : n + 1 = m * (n / m + 1) := by rw [Nat.mul_add]; omega
  constructor
  · rw [this, Nat.mul_div_cancel_left _ hm]
  · rw [this, Nat.mul_mod_right]

theorem partialOf_stay {m : Nat} {l : List (BitVec 1)} (b : BitVec 1) (hm : 0 < m) (h : l.length % m + 1 ≠ m) :
    partialOf m (l ++ [b]) = partialOf m l ++ [b] := by
  unfold partialOf
  simp only [List.length_append, List.length_singleton, (div_mod_stay hm h).1]
  rw [List.drop_append_of_le_length (Nat.div_mul_le_self ..)]

theorem partialOf_full {m : Nat} {l : List (BitVec 1)} (b : BitVec 1) (hm : 0 < m) (h : l.length % m + 1 = m) :
    partialOf m (l ++ [b]) = [] := by
  apply List.eq_nil_of_length_eq_zero
  rw [partialOf_length]
  simpa using (div_mod_full hm h).2

theorem group_append {m t : Nat} {l : List (BitVec 1)} (b : BitVec 1) (h : (t + 1) * m ≤ l.length) :
    group m (l ++ [b]) t = group m l t := by
  unfold group
  have h1 : t * m ≤ l.length := le_trans (Nat.mul_le_mul_right m (Nat.le_succ t)) h
  rw [List.drop_append_of_le_length h1, List.take_append_of_le_length]
  rw [List.length_drop]
  have : (t + 1) * m = t * m + m := by ring
  omega

/-- The complete groups do not see one more bit. -/
theorem map_group_append {m q : Nat} {l : List (BitVec 1)} (b : BitVec 1) (h : q * m ≤ l.length) :
    (List.range q).map (fun t => bitsValue (group m (l ++ [b]) t)) =
      (List.range q).map (fun t => bitsValue (group m l t)) := by
  apply List.map_congr_left
  intro t ht
  have ht : t < q := by simpa using ht
  rw [group_append]
  exact le_trans (Nat.mul_le_mul_right m ht) h

theorem symbolsOf_stay {m : Nat} {l : List (BitVec 1)} (b : BitVec 1) (hm : 0 < m) (h : l.length % m + 1 ≠ m) :
    symbolsOf m (l ++ [b]) = symbolsOf m l := by
  unfold symbolsOf
  simp only [List.length_append, List.length_singleton, (div_mod_stay hm h).1]
  exact map_group_append b (Nat.div_mul_le_self ..)

theorem symbolsOf_full {m : Nat} {l : List (BitVec 1)} (b : BitVec 1) (hm : 0 < m) (h : l.length % m + 1 = m) :
    symbolsOf m (l ++ [b]) = symbolsOf m l ++ [2 * bitsValue (partialOf m l) + b.toNat] := by
  unfold symbolsOf
  simp only [List.length_append, List.length_singleton, (div_mod_full hm h).1, List.range_succ, List.map_append]
  rw [map_group_append b (Nat.div_mul_le_self ..)]
  congr 1
  simp only [List.map_cons, List.map_nil]
  rw [← bitsValue_append]
  congr 2
  unfold group partialOf
  rw [List.drop_append_of_le_length (Nat.div_mul_le_self ..)]
  apply List.take_of_length_le
  have := partialOf_length m l
  unfold partialOf at this
  simp [this]
  omega

/-! ### What the parts of the invariant depend on -/

theorem constellationBuilt_congr {s t : State} (h : ConstellationBuilt s) (h1 : t.cfgM = s.cfgM)
    (h2 : t.cfgAngle = s.cfgAngle) (h3 : t.nsym = s.nsym) (h4 : t.const = s.const) : ConstellationBuilt t := by
  refine ⟨h1 ▸ h.mPos, h1 ▸ h.mMax, by rw [h1, h3]; exact h.nsym, h2 ▸ h.angle, fun k hk => ?_⟩
  rw [h3] at hk
  unfold constAt
  rw [h1, h2, h4]
  exact h.entries k hk

theorem tableBuilt_congr {s t : State} (h : TableBuilt s) (e : SameSetup s t) : TableBuilt t := by
  have he : ∀ r i, tableEntry t r i = tableEntry s r i := by
    intro r i
    unfold tableEntry
    rw [e.cfgM, e.cfgAngle, e.cfgFs, e.cfgFc]
  have h1 := h.template
  have h2 := h.table
  refine ⟨e.cfgFs ▸ h.fsPos, e.cfgBaud ▸ h.baudPos, ?_, e.sps ▸ h.spsPos, e.sps ▸ h.spsMax, ?_, ?_, fun i hi => ?_,
    fun r i hr hi => ?_⟩
  · rw [e.sps, e.cfgFs, e.cfgBaud]; exact h.sps
  · rw [e.tblRows, e.nsym]; exact h.rows
  · rw [e.tblCols, e.sps]; exact h.cols
  · rw [e.sps] at hi
    unfold tmplAt at *
    rw [e.tmpl, e.cfgFc, e.cfgFs]
    exact h1 i hi
  · rw [e.sps] at hi
    rw [e.nsym] at hr
    unfold tblAt at *
    rw [e.tbl, he]
    exact h2 r i hr hi

theorem tableRow_congr {s t : State} (h1 : t.cfgM = s.cfgM) (h2 : t.cfgAngle = s.cfgAngle) (h3 : t.cfgFs = s.cfgFs)
    (h4 : t.cfgFc = s.cfgFc) (h5 : t.sps = s.sps) (r : Nat) : tableRow t r = tableRow s r := by
  unfold tableRow
  rw [h5]
  apply List.map_congr_left
  intro i _
  unfold tableEntry
  rw [h1, h2, h3, h4]

@[simp] theorem tableRow_length (s : State) (r : Nat) : (tableRow s r).length = s.sps.toNat := by simp [tableRow]

end Sys2Proof.Safety
end

