-- ==== Sys2Proof/Laws/Run.lean ====
section
/-! SUPPORT. Runs of the machine, one step at a time. -/

namespace Sys2Proof.Machine

/-- A run of `k + 1` steps is one step and a run of `k`. -/
theorem core_run_succ (M : Host.Core) (k : Nat) (s : M.State) :
    M.run (k + 1) s =
      match M.step s with
      | .next t => M.run k t
      | .fault f => .fault f
      | .refused r => .refused r := rfl

/-- A run goes on past a step that goes on. -/
theorem core_run_step (M : Host.Core) {s t : M.State} (k : Nat) (h : M.step s = .next t) :
    M.run (k + 1) s = M.run k t := by
  rw [core_run_succ, h]

/-- A property that every step keeps, and in which every step goes on, holds at the end of every run. -/
theorem core_run_keeps (M : Host.Core) (P : M.State → Prop) (hk : ∀ s, P s → ∃ t, M.step s = .next t ∧ P t)
    (k : Nat) (s : M.State) (h : P s) : ∃ t, M.run k s = .next t ∧ P t := by
  induction k generalizing s with
  | zero => exact ⟨s, rfl, h⟩
  | succ k ih =>
    obtain ⟨t, ht, hp⟩ := hk s h
    obtain ⟨u, hu, hq⟩ := ih t hp
    exact ⟨u, (core_run_step M k ht).trans hu, hq⟩

end Sys2Proof.Machine
end

