-- ==== Sys2Proof/Tests/Slice0.lean ====
section
/-! SUPPORT. Tests. Expected results are those of spec/95_test_vectors.md (the vector is named) or worked out by hand from
the rule named. `M_MAX` and `SPS_MAX` are arguments (log 1), so the states have M of 1 or 2, which every `M_MAX` admits, and
the limits are tested in terms of the arguments. The last part gives, for every statement of the certificate with
hypotheses, a state and operands that meet them. -/

namespace Sys2Proof.Tests

open Sys2Proof.Machine Sys2Proof.Safety

/-! ### Well-formedness (30_encoding.md R73, R79) -/

theorem test_cmdUndef_bcon_refused : (Instr.cmdUndef 1#32).wellFormed = false := by decide
theorem test_cmdUndef_btab_refused : (Instr.cmdUndef 2#32).wellFormed = false := by decide
theorem test_cmdUndef_open_refused : (Instr.cmdUndef 3#32).wellFormed = false := by decide
theorem test_cmdUndef_eoi_refused : (Instr.cmdUndef 4#32).wellFormed = false := by decide
theorem test_cmdUndef_0_accepted : (Instr.cmdUndef 0#32).wellFormed = true := by decide
theorem test_cmdUndef_0x101_accepted : (Instr.cmdUndef 0x101#32).wellFormed = true := by decide

/-! ### Decoding: words written out from 30_encoding.md R71 to R74 (`0xHH_DDDDDDDD`) -/

theorem test_decode_rdreg : decodeTableWord 40 0x0D00000000 = some (.rdreg 13#4 0#32) := by decide
theorem test_decode_rdreg_data : decodeTableWord 40 0x0180000001 = some (.rdreg 1#4 0x80000001#32) := by decide
theorem test_decode_bcon : decodeTableWord 40 0x1000000001 = some .bcon := by decide
theorem test_decode_btab : decodeTableWord 40 0x1000000002 = some .btab := by decide
theorem test_decode_open : decodeTableWord 40 0x1000000003 = some .openSession := by decide
theorem test_decode_eoi : decodeTableWord 40 0x1000000004 = some .eoi := by decide
theorem test_decode_cmdUndef : decodeTableWord 40 0x1000000101 = some (.cmdUndef 0x101#32) := by decide
theorem test_decode_illegalStatus : decodeTableWord 40 0x1100000000 = some (.illegalStatus 0#32) := by decide
theorem test_decode_illegalErrExpect : decodeTableWord 40 0x1200000001 = some (.illegalErrExpect 1#32) := by decide
theorem test_decode_illegalErrActual : decodeTableWord 40 0x1380000000 = some (.illegalErrActual 0x80000000#32) := by
  decide
theorem test_decode_cfgM : decodeTableWord 40 0x1400000003 = some (.wrregCfgM 3#32) := by decide
theorem test_decode_cfgFs : decodeTableWord 40 0x1500000008 = some (.wrregCfgFs 8#32) := by decide
theorem test_decode_cfgBaud : decodeTableWord 40 0x160001F400 = some (.wrregCfgBaud 128000#32) := by decide
theorem test_decode_cfgFc : decodeTableWord 40 0x17000003E8 = some (.wrregCfgFc 1000#32) := by decide
theorem test_decode_cfgAngle : decodeTableWord 40 0x187FC00000 = some (.wrregCfgAngle 0x7FC00000#32) := by decide
theorem test_decode_tblRows : decodeTableWord 40 0x1900000008 = some (.wrregTblRows 8#32) := by decide
theorem test_decode_tblCols : decodeTableWord 40 0x1A00000008 = some (.wrregTblCols 8#32) := by decide
theorem test_decode_illegalNsym : decodeTableWord 40 0x1B00000001 = some (.illegalNsym 1#32) := by decide
theorem test_decode_illegalSps : decodeTableWord 40 0x1C00000002 = some (.illegalSps 2#32) := by decide
theorem test_decode_illegalRxbit : decodeTableWord 40 0x1D00000003 = some (.illegalRxbit 3#32) := by decide
theorem test_decode_illegalBitsacc : decodeTableWord 40 0x1E00000004 = some (.illegalBitsacc 4#32) := by decide
theorem test_decode_illegalReserved15 : decodeTableWord 40 0x1F00000005 = some (.illegalReserved15 5#32) := by decide
theorem test_decode_push : decodeTableWord 8 0xFE = some (.push 0xFE#8) := by decide
theorem test_decode_reset : decodeTableWord 0 0 = some .reset := by decide
theorem test_decode_bit37_refused :
    decodeBytes [1#8, 0#8, 0#8, 0#8, 0x20#8] = .error .bitsAbove36 := by decide
theorem test_decode_two_bytes_refused : decodeBytes [1#8, 0#8] = .error (.badLength 2) := by decide

/-! ### Numbers that the parameters admit -/

theorem toNat_index {k : Nat} (h : k < 4) : (BitVec.ofNat Config.mMax k).toNat = k := by
  have : 2 ^ 2 ≤ 2 ^ Config.mMax := Nat.pow_le_pow_right (by omega) Config.two_le_mMax
  exact (BitVec.toNat_ofNat ..).trans (Nat.mod_eq_of_lt (by omega))

theorem toNat_count {k : Nat} (h : k ≤ 2) : (BitVec.ofNat Config.countBits k).toNat = k := by
  have h1 := Config.mMax_lt_two_pow_countBits
  have h2 := Config.two_le_mMax
  exact (BitVec.toNat_ofNat ..).trans (Nat.mod_eq_of_lt (by omega))

theorem toNat_count_succ {k : Nat} (h : k < 2) :
    (BitVec.ofNat Config.countBits k + 1#Config.countBits).toNat = k + 1 := by
  rw [← BitVec.ofNat_add]
  exact toNat_count (by omega)

theorem toNat_word {n : Nat} (h : n < 2 ^ 32) : (BitVec.ofNat 32 n).toNat = n :=
  (BitVec.toNat_ofNat ..).trans (Nat.mod_eq_of_lt h)

theorem four_le_constSize : 4 ≤ constSize := Nat.pow_le_pow_right (n := 2) (by omega) Config.two_le_mMax

/-- 10_state.md R36, R37 with the default `M_MAX` of 6: bitsAccum has 3 bits. -/
theorem test_widthFor : Config.widthFor 6 = 3 := by decide
/-- A3 with `M_MAX` = 6 and M = 3: the bits 1, 0, 0 make the index 4. -/
theorem test_shiftBit : shiftBit 3 (shiftBit 3 (shiftBit 3 0#6 1#1) 0#1) 0#1 = 4#6 := by decide
/-- R128: the mask drops what lies above M bits. -/
theorem test_shiftBit_mask : shiftBit 3 7#6 0#1 = 6#6 ∧ shiftBit 6 63#6 1#1 = 63#6 := by decide

/-- The bits 1, 0 make the index 2, whatever `M_MAX` is. -/
theorem shift_index : shiftBit 2 (BitVec.ofNat Config.mMax 1) 0#1 = BitVec.ofNat Config.mMax 2 := by
  have := Config.two_le_mMax
  refine BitVec.eq_of_toNat_eq ?_
  rw [shiftBit_toNat (by omega), toNat_index (by omega), toNat_index (by omega), Nat.min_eq_left this]
  rfl

/-! ### One operation on a small state -/

/-- The operation goes on, to a state with this property. -/
def leads (i : Instr) (s : State) (p : State → Bool) : Bool :=
  match exec i s with
  | .next t => p t
  | .fault _ => false
  | .refused _ => false

/-- A state in phase `p`, otherwise as after reset. -/
def inState (p : Phase) : State := { State.reset with phase := p }

/-- The fault record (STATUS, ERR_EXPECT, ERR_ACTUAL). -/
def record (t : State) : Word × Word × Word := (statusWord t, t.errExpect, t.errActual)

/-- R1: CFG_FS reads 1000000 after reset. -/
theorem test_rdreg_cfgFs : leads (.rdreg 5#4 0#32) State.reset (·.env.reads == [1000000#32]) = true := by decide
/-- R12: RXBIT reads rxBit. -/
theorem test_rdreg_rxbit :
    leads (.rdreg 13#4 0#32) { inState .run with rxBit := .ofNat _ 1 } (·.env.reads == [1#32]) = true := by
  have : leads (.rdreg 13#4 0#32) { inState .run with rxBit := .ofNat _ 1 } (·.env.reads == [1#32]) =
    ([BitVec.ofNat 32 (BitVec.ofNat Config.mMax 1).toNat] == [1#32]) := rfl
  rw [this, toNat_index (by omega)]
  rfl
/-- R2 -/
theorem test_cfgM_stored : leads (.wrregCfgM 3#32) State.reset (· == { State.reset with cfgM := 3#32 }) = true := by
  decide
/-- R10 -/
theorem test_cfgM_faulted : leads (.wrregCfgM 2#32) (inState .fault) (· == inState .fault) = true := by decide
/-- P3 -/
theorem test_cfgFs_stored : leads (.wrregCfgFs 8#32) State.reset (· == { State.reset with cfgFs := 8#32 }) = true := by
  decide
/-- R90's example -/
theorem test_cfgBaud_stored :
    leads (.wrregCfgBaud 128000#32) State.reset (· == { State.reset with cfgBaud := 128000#32 }) = true := by decide
/-- R5 -/
theorem test_cfgFc_locked :
    leads (.wrregCfgFc 1000#32) (inState .const)
      (fun t => record t == (0x77#32, 0#32, 1#32) && t.cfgFc == 2440#32) = true := by decide
/-- P3 -/
theorem test_cfgFc_stored : leads (.wrregCfgFc 1#32) State.reset (· == { State.reset with cfgFc := 1#32 }) = true := by
  decide
/-- R4 -/
theorem test_cfgAngle_nan_stored :
    leads (.wrregCfgAngle 0x7FC00000#32) State.reset (· == { State.reset with cfgAngle := 0x7FC00000#32 }) = true := by
  decide
/-- P5 -/
theorem test_tblRows_stored :
    leads (.wrregTblRows 8#32) State.reset (· == { State.reset with tblRows := 8#32 }) = true := by decide
/-- P2 -/
theorem test_tblCols_stored :
    leads (.wrregTblCols 8#32) State.reset (· == { State.reset with tblCols := 8#32 }) = true := by decide
/-- R6 -/
theorem test_illegalStatus :
    leads (.illegalStatus 0#32) State.reset (record · == (0x87#32, 1#32, 0#32)) = true := by decide
theorem test_illegalErrExpect :
    leads (.illegalErrExpect 9#32) State.reset (record · == (0x87#32, 2#32, 9#32)) = true := by decide
theorem test_illegalErrActual :
    leads (.illegalErrActual 9#32) State.reset (record · == (0x87#32, 3#32, 9#32)) = true := by decide
/-- F4, F3 -/
theorem test_illegalNsym_in_run :
    leads (.illegalNsym 1#32) { inState .run with sinkOpen := true }
      (fun t => record t == (0x87#32, 11#32, 1#32) && !t.sinkOpen) = true := by decide
theorem test_illegalSps : leads (.illegalSps 9#32) State.reset (record · == (0x87#32, 12#32, 9#32)) = true := by decide
theorem test_illegalRxbit : leads (.illegalRxbit 9#32) State.reset (record · == (0x87#32, 13#32, 9#32)) = true := by
  decide
theorem test_illegalBitsacc : leads (.illegalBitsacc 9#32) State.reset (record · == (0x87#32, 14#32, 9#32)) = true := by
  decide
/-- R7 -/
theorem test_illegalReserved15 :
    leads (.illegalReserved15 5#32) State.reset (record · == (0x87#32, 15#32, 5#32)) = true := by decide
/-- R9 -/
theorem test_cmdUndef : leads (.cmdUndef 0x101#32) State.reset (record · == (0x87#32, 0#32, 0x101#32)) = true := by
  decide
/-- B1 -/
theorem test_bcon :
    leads .bcon State.reset (fun t => t.nsym == 4#32 && t.phase == .const &&
      (t.const.read 3).map (·.mag) == some one32 && t.const.map Prod.fst == [0, 1, 2, 3]) = true := by decide +kernel
/-- B11, B9: E_CFG_M with `M_MAX` and M, for M = 0 before the angle and for M = 32, which no `M_MAX` admits. -/
theorem test_bcon_rejects (m : Word) (h : m = 0#32 ∨ m = 32#32) (a : Word) :
    exec .bcon { State.reset with cfgM := m, cfgAngle := a } =
      .next ({ State.reset with cfgM := m, cfgAngle := a }.raise .cfgM (BitVec.ofNat 32 Config.mMax) m) := by
  have hm : m.toNat = 0 ∨ Config.mMax < m.toNat := by
    have := Config.mMax_le
    rcases h with rfl | rfl
    · exact .inl rfl
    · exact .inr (show Config.mMax < 32 by omega)
  exact congrArg Host.Outcome.next (if_pos hm)
/-- B10: the same with the angle NaN and a legal M. -/
theorem test_bcon_rejects_angle :
    leads .bcon { State.reset with cfgAngle := 0x7FC00000#32 } (record · == (0x47#32, 0#32, 0x7FC00000#32)) = true := by
  decide +kernel

/-- After BCON of two symbols; magnitudes and angles are not those of BCON, which BTAB does not ask. -/
def builtConst : State :=
  { inState .const with
    cfgM := 1#32, nsym := 2#32, tblRows := 2#32, cfgFs := 3#32, cfgBaud := 2#32, tblCols := 2#32
    const := [(0, ⟨one32, dec32 0#32⟩), (1, ⟨one32, one32⟩)] }

theorem builtConst_entry {r : Nat} (h : r < 2) :
    constAt builtConst r = some (if r = 0 then ⟨one32, dec32 0#32⟩ else ⟨one32, one32⟩) := by
  have := four_le_constSize
  rw [constAt_eq, if_pos (by omega)]
  interval_cases r <;> decide

theorem exec_btab_const {s : State} (h : s.phase = .const) : exec .btab s = finish (buildTables Config.num s) := by
  simp [exec, execBtab, inPhase, faulted, h]

/-- T2's shape: ceil(3 / 2) = 2 samples; rows 0 and 1 have two entries each, at addresses from 0 and `SPS_MAX`. -/
theorem test_btab :
    ∃ t, exec .btab builtConst = .next t ∧ t.sps = 2#32 ∧ t.phase = .ready ∧ t.tmpl.map Prod.fst = [0, 1] ∧
      (tblAt t 1 1).isSome = true ∧ (t.tbl.read (Config.spsMax + 1)).isSome = true ∧ tblAt t 1 2 = none ∧
      tblAt t 2 0 = none := by
  have h1 := four_le_constSize
  have h2 := Config.spsMax_ge
  have h3 : ceilDiv builtConst.cfgFs.toNat builtConst.cfgBaud.toNat = 2 := by decide
  obtain ⟨tbl, ht, hr, -⟩ := fillTables_ok (num := Config.num) (n := 2) (s := builtConst) (by omega)
    fun r h => toOption_eq_some.mp (builtConst_entry h)
  rcases buildTables_cases Config.num builtConst with
    ⟨h, _⟩ | ⟨_, h, _⟩ | ⟨_, _, h, _⟩ | ⟨_, _, _, h, _⟩ | ⟨_, _, _, _, h, _⟩ | ⟨_, _, _, _, _, e⟩
  · exact absurd h (by decide)
  · exact absurd h (by decide)
  · omega
  · exact absurd h (by decide)
  · exact absurd h (by decide)
  rw [h3, ht] at e
  refine ⟨_, (exec_btab_const rfl).trans (congrArg finish e), rfl, rfl, rfl, ?_⟩
  have h5 : Config.spsMax + 1 = tblAddress 1 1 := by simp [tblAddress]
  have h6 := tblAddress_lt (r := 1) (i := 1) (by omega) (by omega)
  have h7 : (tbl.read (tblAddress 1 1)).isSome = true := by
    rw [hr 1 1 (by omega), if_pos ⟨show 1 < 2 by omega, by omega⟩]
    rfl
  refine ⟨?_, h5 ▸ h7, ?_, ?_⟩
  · rw [tblAt_eq, if_pos ⟨by omega, h6⟩]
    exact h7
  · rw [tblAt_eq]
    split
    · exact (hr 1 2 (by omega)).trans (if_neg fun h => absurd h.2 (by omega))
    · rfl
  · rw [tblAt_eq]
    split
    · exact (hr 2 0 (by omega)).trans (if_neg fun h => absurd h.1 (show ¬ 2 < 2 by omega))
    · rfl

theorem spsMax_lt_ceilDiv : Config.spsMax < ceilDiv (0xFFFFFFFF#32).toNat (1#32).toNat := by
  have e : ceilDiv (0xFFFFFFFF#32).toNat (1#32).toNat = 0xFFFFFFFF := by decide +kernel
  have := Config.spsMax_lt
  rw [e]
  omega

/-- T15, T9: the rate of 2^32 - 1 samples, which no `SPS_MAX` admits; then the wrong number of columns. -/
theorem test_btab_rejects :
    (exec .btab { builtConst with cfgFs := 0xFFFFFFFF#32, cfgBaud := 1#32 } =
      .next ({ builtConst with cfgFs := 0xFFFFFFFF#32, cfgBaud := 1#32 }.raise .cfgRate
        (BitVec.ofNat 32 Config.spsMax) 0xFFFFFFFF#32)) ∧
      leads .btab { builtConst with tblCols := 1064#32 } (record · == (0x27#32, 2#32, 1064#32)) = true := by
  constructor
  · rw [exec_btab_const rfl, buildTables]
    simp only [spsMax_lt_ceilDiv, if_true]
    rfl
  · decide +kernel

/-- The sample of row 2 in the sessions below. -/
def sample : C32 := ⟨dec32 0xBF800000#32, one32⟩

/-- A state in a session with M = 2, one sample per symbol and row 2 written, after the bit 1. -/
def inSession (answers : List Nat) : State :=
  { inState .run with
    cfgM := 2#32, nsym := 4#32, sps := 1#32, sinkOpen := true, rxBit := .ofNat _ 1, bitsAccum := .ofNat _ 1
    tbl := [(tblAddress 2 0, sample)], env := { Env.quiet with tape := answers } }

theorem inSession_row {s : State} (h : s.tbl = [(tblAddress 2 0, sample)]) : tblAt s 2 0 = some sample := by
  have := four_le_constSize
  have := Config.spsMax_ge
  rw [tblAt_eq, if_pos ⟨by omega, tblAddress_lt (by omega) (by omega)⟩, h]
  exact if_pos rfl

/-- EMIT 2 in such a session reads that row. -/
theorem emit_row {s : State} (hs : s.sps = 1#32) (h : s.tbl = [(tblAddress 2 0, sample)]) :
    emitSymbol (.ofNat _ 2) s = .ok (s.emitRow (.ofNat _ 2) [sample]) := by
  refine emitSymbol_ok (by rw [hs]; rfl) fun i hi => ?_
  have hi : i < 1 := by rw [hs] at hi; exact hi
  rw [toNat_index (by omega), show i = 0 by omega]
  exact inSession_row h

/-- PUSH of the bit 0 in such a session completes the symbol 2. -/
theorem push_row (answers : List Nat) :
    exec (.push 0xFE#8) (inSession answers) =
      .next (if faulted (((inSession answers).shiftIn 0#1).emitRow (.ofNat _ 2) [sample])
        then ((inSession answers).shiftIn 0#1).emitRow (.ofNat _ 2) [sample]
        else (((inSession answers).shiftIn 0#1).emitRow (.ofNat _ 2) [sample]).clearAccumulator) := by
  have hc : symbolComplete ((inSession answers).shiftIn 0#1) = true := by
    exact beq_iff_eq.mpr (toNat_count_succ (by omega))
  have hb : dataBit 0xFE#8 = 0#1 := by decide
  have hx : ((inSession answers).shiftIn 0#1).rxBit = .ofNat _ 2 := shift_index
  have he := emit_row (s := (inSession answers).shiftIn 0#1) rfl rfl
  change finish (pushBit (dataBit 0xFE#8) (inSession answers)) = _
  rw [hb, pushBit]
  simp only [hc, if_true, hx, he]
  split <;> rfl

/-- A3's shape, and E2's sample: the sink takes the burst. -/
theorem test_push_completes :
    ∃ t, exec (.push 0xFE#8) (inSession [8]) = .next t ∧ t.syms = [.ofNat _ 2] ∧ t.out = [sample] ∧
      t.sink = [0x00#8, 0x00#8, 0x80#8, 0xBF#8, 0x00#8, 0x00#8, 0x80#8, 0x3F#8] ∧ t.rxBit = 0 ∧
      t.bitsAccum = 0 ∧ t.phase = .run :=
  ⟨_, push_row [8], rfl, rfl, by decide +kernel, rfl, rfl, rfl⟩
/-- E7's shape: the sink takes 3 bytes of 8. -/
theorem test_push_short_write :
    ∃ t, exec (.push 0xFE#8) (inSession [3]) = .next t ∧ record t = (0x67#32, 8#32, 3#32) ∧
      t.syms = [.ofNat _ 2] ∧ t.out = [sample] ∧ t.sink = [0x00#8, 0x00#8, 0x80#8] ∧ t.rxBit = .ofNat _ 2 ∧
      t.bitsAccum = .ofNat _ 1 + 1 ∧ t.sinkOpen = false :=
  ⟨_, push_row [3], by decide +kernel, rfl, rfl, by decide +kernel, shift_index, rfl, rfl⟩
theorem emit_inSession :
    exec (.emit (.ofNat _ 2)) (inSession [8]) = .next ((inSession [8]).emitRow (.ofNat _ 2) [sample]) := by
  have h : exec (.emit (.ofNat _ 2)) (inSession [8]) = finish (emitSymbol (.ofNat _ 2) (inSession [8])) := rfl
  rw [h, emit_row rfl rfl]
  rfl

/-- E2 -/
theorem test_emit :
    ∃ t, exec (.emit (.ofNat _ 2)) (inSession [8]) = .next t ∧ t.syms = [.ofNat _ 2] ∧ t.out = [sample] ∧
      t.sink = ser [sample] ∧ t.rxBit = .ofNat _ 1 ∧ t.bitsAccum = .ofNat _ 1 :=
  ⟨_, emit_inSession, rfl, rfl, rfl, rfl, rfl⟩
theorem test_emit_outside_session :
    leads (.emit 3) (inState .ready) (record · == (0x77#32, 3#32, 2#32)) = true := by decide
/-- O6 -/
theorem test_open_again :
    leads .openSession { inSession [1] with phase := .done, sinkOpen := false, syms := [2], sink := [7#8] }
      (fun t => t.phase == .run && t.sinkOpen && t.syms == [] && t.sink == [] && t.rxBit == 0) = true := by decide
/-- O2 -/
theorem test_open_refused :
    leads .openSession { inSession [0] with phase := .ready, sinkOpen := false }
      (record · == (0x57#32, 0#32, 0#32)) = true := by decide
/-- A6, O5 -/
theorem test_eoi :
    leads .eoi { inSession [] with syms := [0] } (fun t => statusWord t == 4#32 && t.rxBit == 0 && t.bitsAccum == 0 &&
      !t.sinkOpen && t.syms == [0]) = true := by decide
/-- O7 -/
theorem test_eoi_early : leads .eoi (inState .ready) (record · == (0x77#32, 3#32, 2#32)) = true := by decide
/-- F2 -/
theorem test_reset : leads .reset { inSession [] with phase := .fault, cause := .ioShort } (· == State.reset) = true := by
  decide

/-! ### Serialisation and floats -/

/-- E1, E3 -/
theorem test_ser : ser [⟨one32, dec32 0#32⟩, ⟨dec32 0x3F3504F3#32, dec32 0xBF3504F3#32⟩] =
    [0x00#8, 0x00#8, 0x80#8, 0x3F#8, 0x00#8, 0x00#8, 0x00#8, 0x00#8,
      0xF3#8, 0x04#8, 0x35#8, 0x3F#8, 0xF3#8, 0x04#8, 0x35#8, 0xBF#8] := by decide
/-- E4 -/
theorem test_ser_negative_zero : ser [⟨dec32 0#32, dec32 0x80000000#32⟩] =
    [0x00#8, 0x00#8, 0x00#8, 0x00#8, 0x00#8, 0x00#8, 0x00#8, 0x80#8] := by decide
/-- B6: 399.375 -/
theorem test_float_399_375 : floatValue (dec32 0x43C7B000#32) = 399.375 := by decide +kernel
/-- B13: -45 -/
theorem test_float_minus_45 : floatValue (dec32 0xC2340000#32) = -45 := by decide +kernel
/-- By R15: the least positive subnormal is 2^-149. -/
theorem test_float_subnormal : floatValue (dec32 1#32) = 1 / 2 ^ 149 := by decide +kernel
theorem test_infinity_not_finite : isFinite (dec32 0x7F800000#32) = false := by decide
/-- S4: [0, 0, 1, 1] yields the indices 0 and 3. -/
theorem test_symbolsOf : symbolsOf 2 [0#1, 0#1, 1#1, 1#1] = [0, 3] := by decide
/-- S6, T6 -/
theorem test_ceilDiv : ceilDiv 1000000 940 = 1064 ∧ ceilDiv 1 940 = 1 := by decide

/-! ### The memory and the step -/

theorem test_reset_memories_wf :
    (State.reset.const.wf constSize && State.reset.tmpl.wf tmplSize && State.reset.tbl.wf tblSize) = true := by decide
theorem test_write_keeps_order : Mem.write [(1, true), (3, true)] 2 false = [(1, true), (2, false), (3, true)] := by
  decide
theorem test_step_runs_offered :
    (match step (State.reset.withFetchWord 40 0x1400000003) with
      | .next t => t.cfgM == 3#32 && t.env.inbox == []
      | .fault _ => false
      | .refused _ => false) = true := by decide

/-! ### Witnesses: the hypotheses of the statements can be met, clause by clause -/

theorem witness_EncodeThenDecode :
    (Instr.push 0xFF#8).wellFormed = true ∧ encode (.push 0xFF#8) = some (.in8 0xFF#8) ∧
      (Instr.cmdUndef 5#32).wellFormed = true ∧ (encode (.cmdUndef 5#32)).isSome = true ∧
      (Instr.emit 3).wellFormed = true ∧ encode (.emit 3) = none := by decide

theorem witness_OperationTableRows :
    (0x0FFFFFFFFF#37 &&& 0x1000000000#37 = 0#37) ∧
      (0x1000000000#37 &&& 0x1F00000000#37 = 0x1000000000#37 ∧ 0x1000000000#37 ≠ 0x1000000001#37 ∧
        0x1000000000#37 ≠ 0x1000000002#37 ∧ 0x1000000000#37 ≠ 0x1000000003#37 ∧
        0x1000000000#37 ≠ 0x1000000004#37) ∧
      (0x1000000005#37 &&& 0x1F00000000#37 = 0x1000000000#37 ∧ 0x1000000005#37 ≠ 0x1000000001#37 ∧
        0x1000000005#37 ≠ 0x1000000002#37 ∧ 0x1000000005#37 ≠ 0x1000000003#37 ∧
        0x1000000005#37 ≠ 0x1000000004#37) ∧
      0x11FFFFFFFF#37 &&& 0x1F00000000#37 = 0x1100000000#37 ∧ 0x12FFFFFFFF#37 &&& 0x1F00000000#37 = 0x1200000000#37 ∧
      0x13FFFFFFFF#37 &&& 0x1F00000000#37 = 0x1300000000#37 ∧ 0x14FFFFFFFF#37 &&& 0x1F00000000#37 = 0x1400000000#37 ∧
      0x15FFFFFFFF#37 &&& 0x1F00000000#37 = 0x1500000000#37 ∧ 0x16FFFFFFFF#37 &&& 0x1F00000000#37 = 0x1600000000#37 ∧
      0x17FFFFFFFF#37 &&& 0x1F00000000#37 = 0x1700000000#37 ∧ 0x18FFFFFFFF#37 &&& 0x1F00000000#37 = 0x1800000000#37 ∧
      0x19FFFFFFFF#37 &&& 0x1F00000000#37 = 0x1900000000#37 ∧ 0x1AFFFFFFFF#37 &&& 0x1F00000000#37 = 0x1A00000000#37 ∧
      0x1BFFFFFFFF#37 &&& 0x1F00000000#37 = 0x1B00000000#37 ∧ 0x1CFFFFFFFF#37 &&& 0x1F00000000#37 = 0x1C00000000#37 ∧
      0x1DFFFFFFFF#37 &&& 0x1F00000000#37 = 0x1D00000000#37 ∧ 0x1EFFFFFFFF#37 &&& 0x1F00000000#37 = 0x1E00000000#37 ∧
      0x1FFFFFFFFF#37 &&& 0x1F00000000#37 = 0x1F00000000#37 := by decide

theorem witness_IgnoredBits : (0x00#8).getLsbD 0 = (0xFE#8).getLsbD 0 ∧ (0x01#8).getLsbD 0 = (0xFF#8).getLsbD 0 := by
  decide

theorem witness_StepRuns :
    (State.reset.offer (.in8 1#8)).env.inbox = [.in8 1#8] ∧ State.reset.env.inbox = [] ∧
      decodeTableWord 40 0x1FFFFFFFFF = some (.illegalReserved15 0xFFFFFFFF#32) := by decide

/-- OnlyResetLeavesFaultOrReturnsToIdle, FaultRecordDescribesTheFirstFault (both of its outcomes). -/
theorem witness_exec_goes_on :
    (exec .bcon (inState .fault) = .next (inState .fault) ∧ Instr.bcon ≠ .reset ∧ (inState .fault).phase = .fault) ∧
      (exec .eoi (inState .run) = .next (endSession (inState .run)) ∧ Instr.eoi ≠ .reset ∧
        (inState .run).phase ≠ .idle) ∧
      exec .eoi (inState .idle) = .next ((inState .idle).raise .seq 3#32 0#32) := by
  refine ⟨⟨?_, ?_, ?_⟩, ⟨?_, ?_, ?_⟩, ?_⟩ <;> first | rfl | decide

theorem witness_NothingRunsAfterAFault : (inState .fault).phase = .fault := by decide

theorem witness_WrongPhase :
    ((inState .run).phase ≠ .fault ∧ (inState .run).phase ≠ .idle ∧ (inState .run).phase ≠ .const ∧
      (inState .run).phase ≠ .ready ∧ (inState .run).phase ≠ .done) ∧
      (inState .idle).phase ≠ .fault ∧ (inState .idle).phase ≠ .run := by decide

theorem witness_EmitOutsideASession : (inState .done).phase ≠ .fault ∧ (inState .done).phase ≠ .run := by decide

theorem witness_IllegalWrites : (inState .idle).phase ≠ .fault ∧ (inState .done).phase ≠ .fault := by decide

theorem witness_ConfigWrite : State.reset.phase = .idle := by decide

/-- At both ends of the range of M. -/
theorem witness_BconBuilds :
    State.reset.phase = .idle ∧ isFinite (dec32 State.reset.cfgAngle) = true ∧
      (1 ≤ (1#32).toNat ∧ (1#32).toNat ≤ Config.mMax) ∧
      1 ≤ (BitVec.ofNat 32 Config.mMax).toNat ∧ (BitVec.ofNat 32 Config.mMax).toNat ≤ Config.mMax := by
  have h1 := Config.two_le_mMax
  have h2 := Config.mMax_le
  rw [toNat_word (n := Config.mMax) (by omega)]
  exact ⟨by decide, by decide, ⟨by decide, le_trans (by decide) h1⟩, by omega, by omega⟩

/-- With M just above `M_MAX`. -/
theorem witness_BconRejects :
    State.reset.phase = .idle ∧ (0#32).toNat = 0 ∧ Config.mMax < (BitVec.ofNat 32 (Config.mMax + 1)).toNat ∧
      1 ≤ State.reset.cfgM.toNat ∧ State.reset.cfgM.toNat ≤ Config.mMax ∧ (dec32 0xFF800000#32).exp = 255#8 := by
  have h1 := Config.two_le_mMax
  have h2 := Config.mMax_le
  rw [toNat_word (n := Config.mMax + 1) (by omega)]
  exact ⟨by decide, by decide, by omega, by decide, h1, by decide⟩

/-- Some numerics record has property (c) of 00_scope.md R12. -/
theorem witness_HasExactSpacing : ∃ n : Sys2Proof.Num, HasExactSpacing n := by
  classical
  refine ⟨{
    angle := fun a0 k m => if h : ∃ f, IsFloatOf (idealAngle a0 k m) f then h.choose else default
    deg2rad := fun _ => default, cphase := fun _ _ _ => default, polar := fun _ _ => default
    cmul := fun _ _ => default }, fun a0 k m f _ hf => ?_⟩
  have h : ∃ f, IsFloatOf (idealAngle a0 k m) f := ⟨f, hf⟩
  simp only [h, dif_pos]
  exact h.choose_spec.unique hf

/-- B2: under property (c) symbol 0 of the initial angle +0.0 has the pattern 0x00000000. -/
theorem test_exactSpacing_zero (n : Sys2Proof.Num) (h : HasExactSpacing n) (M : Nat) :
    enc32 (n.angle (dec32 0#32) 0 M) = 0#32 := by
  have hz : floatValue (dec32 0#32) = 0 := by decide +kernel
  rw [h _ _ _ (dec32 0#32) (by decide) ⟨by decide, by simp [idealAngle], fun _ => rfl⟩]
  decide

/-- NeighbouringSymbolsAreExactlySpaced: symbols 0 and 1 of vector B1. -/
theorem witness_NeighbouringSymbols :
    (∃ n : Sys2Proof.Num, HasExactSpacing n) ∧ isFinite (dec32 0x42340000#32) = true ∧ 0 + 1 < 2 ^ 2 ∧
      isFinite (dec32 0x43070000#32) = true ∧
      floatValue (dec32 0x42340000#32) = idealAngle (dec32 0x42340000#32) 0 2 ∧
      floatValue (dec32 0x43070000#32) = idealAngle (dec32 0x42340000#32) (0 + 1) 2 := by
  have h : floatValue (dec32 0x42340000#32) = 45 := by decide +kernel
  have h' : floatValue (dec32 0x43070000#32) = 135 := by decide +kernel
  refine ⟨witness_HasExactSpacing, by decide, by decide, by decide, ?_, ?_⟩ <;>
    simp only [idealAngle, h, h'] <;> norm_num

/-- The value of a finite float has that float as a nearest one, if it is not zero. -/
theorem isNearest_value {f : F32} {x : ℝ} (hf : isFinite f = true) (hv : (floatValue f : ℝ) = x) (h0 : x ≠ 0) :
    IsNearest x f := by
  refine ⟨hf, fun h => absurd h h0, fun g _ => ?_⟩
  rw [hv, sub_self, abs_zero]
  refine ⟨abs_nonneg _, fun h => .inl ?_⟩
  have : (floatValue g : ℝ) = floatValue f := by rw [hv]; exact sub_eq_zero.mp (abs_eq_zero.mp h)
  exact_mod_cast this

/-- ReferenceNumericsHaveUnitMagnitude, ReferenceNumericsHaveExactSpacing, ReferenceProductIsCommutative. -/
theorem witness_ReferenceNumerics : ∃ n : Sys2Proof.Num, IsReference n := exists_isReference

theorem floatValue_one : floatValue one32 = 1 := by decide +kernel

theorem floatValue_zero : floatValue (dec32 0#32) = 0 := by decide +kernel

theorem isNearest_one : IsNearest 1 one32 :=
  isNearest_value (by decide) (by rw [floatValue_one]; norm_num) one_ne_zero

theorem isNearest_zero : IsNearest 0 (dec32 0#32) := by
  refine ⟨by decide, fun _ => rfl, fun g _ => ?_⟩
  rw [floatValue_zero]
  simp only [Rat.cast_zero, sub_zero, abs_zero, abs_nonneg, true_and]
  exact fun _ => .inr (by decide)

theorem witness_NearestToARepresentable :
    IsNearest 1 one32 ∧ isFinite one32 = true ∧ (floatValue one32 : ℝ) = 1 :=
  ⟨isNearest_one, by decide, by rw [floatValue_one]; norm_num⟩

/-- At the angle 0. -/
theorem witness_ReferencePolar : IsNearestPair (Real.cos 0) (Real.sin 0) ⟨one32, dec32 0#32⟩ := by
  rw [Real.cos_zero, Real.sin_zero]
  exact ⟨isNearest_one, isNearest_zero⟩

/-- The bound is met with equality and with room. -/
theorem witness_SamplesPerSymbol : 0 < 940 ∧ 1000000 ≤ 1064 * 940 ∧ 8 ≤ 8 * 1 := by decide

/-- The samples per symbol of a baud rate of 2. -/
theorem ceilDiv_two (k : Nat) : ceilDiv (2 * k) (2#32).toNat = k := by
  change (2 * k + 2 - 1) / 2 = k
  omega

/-- One sample per symbol, and SPS_MAX of them. -/
theorem witness_BtabBuilds :
    (builtConst.phase = .const ∧ builtConst.cfgBaud = 2#32 ∧ (2#32 : Word) ≠ 0#32 ∧
      builtConst.tblRows = builtConst.nsym) ∧
      ((2#32 : Word) ≠ 0#32 ∧ 1 = ceilDiv (2#32).toNat (2#32).toNat ∧ 1 ≤ Config.spsMax ∧ (1#32).toNat = 1) ∧
      (BitVec.ofNat 32 (2 * Config.spsMax) ≠ 0#32 ∧
        Config.spsMax = ceilDiv (BitVec.ofNat 32 (2 * Config.spsMax)).toNat (2#32).toNat ∧
        (BitVec.ofNat 32 Config.spsMax).toNat = Config.spsMax) ∧
      ∀ r, r < builtConst.nsym.toNat →
        constAt builtConst r = some ((fun k => if k = 0 then ⟨one32, dec32 0#32⟩ else ⟨one32, one32⟩) r) := by
  have h1 := Config.spsMax_lt
  have h2 := Config.spsMax_ge
  have e := toNat_word (n := 2 * Config.spsMax) (by omega)
  refine ⟨by decide, ⟨by decide, by decide, by omega, by decide⟩, ⟨fun h => ?_, ?_, toNat_word (by omega)⟩,
    fun r hr => builtConst_entry hr⟩
  · rw [h] at e
    exact absurd e.symm (show 2 * Config.spsMax ≠ 0 by omega)
  · rw [e, ceilDiv_two]

/-- Every clause, the third one sample above SPS_MAX and at 2^32 - 1. -/
theorem witness_BtabRejects :
    (builtConst.phase = .const ∧ builtConst.cfgFs ≠ 0#32 ∧ builtConst.cfgBaud = 2#32 ∧
      2 = ceilDiv builtConst.cfgFs.toNat builtConst.cfgBaud.toNat ∧ (3#32 : Word) ≠ builtConst.nsym ∧
      builtConst.tblRows = builtConst.nsym ∧ (1#32).toNat ≠ 2) ∧ 2 ≤ Config.spsMax ∧
      Config.spsMax < ceilDiv (BitVec.ofNat 32 (2 * (Config.spsMax + 1))).toNat (2#32).toNat ∧
      Config.spsMax < ceilDiv (0xFFFFFFFF#32).toNat (1#32).toNat := by
  have h1 := Config.spsMax_lt
  have h2 := Config.spsMax_ge
  rw [toNat_word (n := 2 * (Config.spsMax + 1)) (by omega), ceilDiv_two]
  exact ⟨by decide, by omega, by omega, spsMax_lt_ceilDiv⟩

theorem witness_OpenStarts : (inState .ready).phase = .ready ∧ (inState .done).phase = .done := by decide

theorem witness_EndOfInput : (inState .run).phase = .run := by decide

/-- M = 2 with no bit so far; and a count that no run reaches, where it wraps (log 14). -/
theorem witness_PushShifts :
    (inSession []).phase = .run ∧ (inSession []).cfgM.toNat = 2 ∧ ((0 : BitVec Config.countBits) + 1).toNat ≠ 2 ∧
      (BitVec.allOnes Config.countBits + 1).toNat ≠ 2 := by
  have h0 := toNat_count_succ (k := 0) (by omega)
  have h1 : (BitVec.allOnes Config.countBits + 1).toNat = 0 := by
    have := Nat.two_pow_pos Config.countBits
    simp [Nat.sub_add_cancel this]
  exact ⟨rfl, rfl, fun h => absurd (h0.symm.trans h) (by decide), fun h => absurd (h1.symm.trans h) (by decide)⟩

/-- PushEmitsTheCompletedSymbol, with a sink that takes the burst (8 bytes) and one that takes none. -/
theorem witness_PushEmits :
    (inSession [8]).phase = .run ∧ ((inSession [8]).bitsAccum + 1).toNat = (inSession [8]).cfgM.toNat ∧
      (BitVec.ofNat Config.mMax 2).toNat =
        (2 * (inSession [8]).rxBit.toNat + (0#8).toNat % 2) % 2 ^ min (inSession [8]).cfgM.toNat Config.mMax ∧
      [sample].length = (inSession [8]).sps.toNat ∧
      (∀ i, i < (inSession [8]).sps.toNat →
        tblAt (inSession [8]) (BitVec.ofNat Config.mMax 2).toNat i = [sample][i]?) ∧
      8 = min ((inSession [8]).env.tape.headD (Config.freeDraw 0)) (8 * (inSession [8]).sps.toNat) ∧
      0 = min ((inSession [0]).env.tape.headD (Config.freeDraw 0)) (8 * (inSession [0]).sps.toNat) := by
  have hm := Config.two_le_mMax
  refine ⟨rfl, toNat_count_succ (by omega), ?_, rfl, fun i hi => ?_, by decide, by decide⟩
  · rw [toNat_index (by omega), show (inSession [8]).rxBit.toNat = 1 from toNat_index (by omega),
      show (inSession [8]).cfgM.toNat = 2 from rfl, Nat.min_eq_left hm]
    rfl
  · have hi : i < 1 := hi
    rw [toNat_index (by omega), show i = 0 by omega]
    exact inSession_row rfl

/-- EmitAppendsTheRowOfTheIndex: the same row. -/
theorem witness_EmitAppends :
    (inSession [8]).phase = .run ∧ [sample].length = (inSession [8]).sps.toNat ∧
      (∀ i, i < (inSession [8]).sps.toNat →
        tblAt (inSession [8]) (BitVec.ofNat Config.mMax 2).toNat i = [sample][i]?) ∧
      8 = min ((inSession [8]).env.tape.headD (Config.freeDraw 0)) (8 * (inSession [8]).sps.toNat) :=
  ⟨witness_PushEmits.1, witness_PushEmits.2.2.2.1, witness_PushEmits.2.2.2.2.1, witness_PushEmits.2.2.2.2.2.1⟩

theorem witness_SerialisedSamples :
    ([] : List Byte).length < 8 ∧ [0#8, 1#8, 2#8, 3#8, 4#8, 5#8, 6#8].length < 8 := by decide

/-! ### Sound states -/

/-- The configuration of the sound states below: M = 2, one sample per symbol. -/
def smallConfig : State :=
  { State.reset with
    cfgFs := 1#32, cfgBaud := 1#32, tblCols := 1#32, nsym := 4#32, sps := 1#32 }

/-- That configuration with everything built, in phase `p`. -/
def built (p : Phase) : State :=
  { smallConfig with
    phase := p
    sinkOpen := p == .run
    const := (List.range 4).map fun k => (k, ⟨one32, Config.num.angle (dec32 smallConfig.cfgAngle) k 2⟩)
    tmpl := [(0, Config.num.polar one32 (Config.num.cphase smallConfig.cfgFc 0 smallConfig.cfgFs))]
    tbl := (List.range 4).map fun r => (tblAddress r 0, tableEntry smallConfig r 0) }

/-- In P_RUN after the bits 1, 0, 1: symbol 2 emitted, one bit left over. -/
def soundRun : State :=
  { built .run with
    rxBit := .ofNat _ 1, bitsAccum := .ofNat _ 1, bits := [1#1, 0#1, 1#1], syms := [.ofNat _ 2]
    out := [tableEntry smallConfig 2 0], sink := ser [tableEntry smallConfig 2 0] }

/-- The same session after EOI. -/
def soundDone : State :=
  { built .done with
    bits := [1#1, 0#1, 1#1], syms := [.ofNat _ 2]
    out := [tableEntry smallConfig 2 0], sink := ser [tableEntry smallConfig 2 0] }

theorem built_constellation (p : Phase) : ConstellationBuilt (built p) := by
  refine ⟨?_, ?_, ?_, ?_, fun k hk => ?_⟩
  · exact (by decide : 1 ≤ smallConfig.cfgM.toNat)
  · exact Config.two_le_mMax
  · exact (by decide : smallConfig.nsym.toNat = 2 ^ smallConfig.cfgM.toNat)
  · exact (by decide : isFinite (dec32 smallConfig.cfgAngle) = true)
  · have hk : k < 4 := hk
    have := four_le_constSize
    rw [constAt_eq, if_pos (by omega)]
    interval_cases k <;> rfl

theorem built_table (p : Phase) : TableBuilt (built p) := by
  refine ⟨?_, ?_, ?_, ?_, ?_, rfl, rfl, fun i hi => ?_, fun r i hr hi => ?_⟩
  · exact (by decide : smallConfig.cfgFs ≠ 0#32)
  · exact (by decide : smallConfig.cfgBaud ≠ 0#32)
  · exact (by decide : smallConfig.sps.toNat = ceilDiv smallConfig.cfgFs.toNat smallConfig.cfgBaud.toNat)
  · exact (by decide : 1 ≤ smallConfig.sps.toNat)
  · exact le_trans (show 1 ≤ 1064 by decide) Config.spsMax_ge
  · have hi : i < 1 := hi
    have := Config.spsMax_ge
    rw [tmplAt_eq, if_pos (by unfold tmplSize; omega)]
    interval_cases i
    rfl
  · have hr : r < 4 := hr
    have hi : i < 1 := hi
    have h1 := Config.spsMax_ge
    have h2 := four_le_constSize
    rw [tblAt_eq, if_pos ⟨by omega, tblAddress_lt (by omega) (by omega)⟩, show i = 0 by omega]
    have h3 : ∀ q : Nat, tblAddress r 0 = tblAddress q 0 ↔ r = q := fun q =>
      ⟨fun h => (tblAddress_inj (by omega) (by omega) h).1, fun h => by rw [h]⟩
    simp only [built, List.range, List.range.loop, List.map, Mem.read, h3]
    interval_cases r <;> rfl

theorem built_memories (p : Phase) :
    (built p).const.wf constSize = true ∧ (built p).tmpl.wf tmplSize = true ∧ (built p).tbl.wf tblSize = true := by
  have h1 := Config.spsMax_ge
  have h2 := four_le_constSize
  have h3 := tblAddress_lt (r := 3) (i := 0) (by omega) (by omega)
  simp only [tblAddress] at h3
  simp [built, List.range, List.range.loop, Mem.wf, Mem.wfFrom, tmplSize, tblAddress]
  omega

theorem small_symbols : symbolsOf 2 [1#1, 0#1, 1#1] = [2] := by decide

theorem soundRun_sound : Sound soundRun where
  constWf := (built_memories .run).1
  tmplWf := (built_memories .run).2.1
  tblWf := (built_memories .run).2.2
  faultRecord := by simp [soundRun, built, smallConfig, State.reset]
  sinkState := by simp [soundRun, built]
  built _ := constellationBuilt_congr (built_constellation .run) rfl rfl rfl rfl
  table _ := tableBuilt_congr (built_table .run) ⟨rfl, rfl, rfl, rfl, rfl, rfl, rfl, rfl, rfl, rfl, rfl, rfl⟩
  cleared h := absurd rfl h
  running _ := ⟨toNat_count (by omega), toNat_index (by omega)⟩
  session _ := ⟨congrArg (· :: []) (toNat_index (by omega)), rfl, rfl⟩
  noSession h := by rcases h with h | h | h <;> cases h
  unbuilt h := by cases h
  untabled h := by cases h

theorem soundDone_sound : Sound soundDone where
  constWf := (built_memories .done).1
  tmplWf := (built_memories .done).2.1
  tblWf := (built_memories .done).2.2
  faultRecord := by simp [soundDone, built, smallConfig, State.reset]
  sinkState := by simp [soundDone, built]
  built _ := constellationBuilt_congr (built_constellation .done) rfl rfl rfl rfl
  table _ := tableBuilt_congr (built_table .done) ⟨rfl, rfl, rfl, rfl, rfl, rfl, rfl, rfl, rfl, rfl, rfl, rfl⟩
  cleared _ _ := ⟨rfl, rfl⟩
  running h := by cases h
  session _ := ⟨congrArg (· :: []) (toNat_index (by omega)), rfl, rfl⟩
  noSession h := by rcases h with h | h | h <;> cases h
  unbuilt h := by cases h
  untabled h := by cases h

theorem witness_AccumulatorStays : Sound soundRun ∧ soundRun.phase = .run ∧ soundRun.bitsAccum.toNat = 2 - 1 :=
  ⟨soundRun_sound, rfl, toNat_count (by omega)⟩

/-- StepKeepsTheInvariant, SoundStatesAlwaysGoOn. -/
theorem witness_StepKeeps : Sound soundRun ∧ step soundRun = .next soundRun := ⟨soundRun_sound, rfl⟩

theorem witness_EndedSession :
    Sound soundDone ∧ Ended soundDone ∧ 2 = soundDone.cfgM.toNat ∧ 1 = soundDone.bits.length / 2 ∧ 0 < 1 ∧
      0 < soundDone.sps.toNat :=
  ⟨soundDone_sound, rfl, by decide, by decide, by decide, by decide⟩

theorem witness_SessionOutput :
    Sound soundRun ∧ Sound soundDone ∧ soundRun.phase = .run ∧ soundDone.phase = .done ∧
      soundRun.cfgM = soundDone.cfgM ∧ soundRun.cfgFs = soundDone.cfgFs ∧ soundRun.cfgBaud = soundDone.cfgBaud ∧
      soundRun.cfgFc = soundDone.cfgFc ∧ soundRun.cfgAngle = soundDone.cfgAngle ∧ soundRun.bits = soundDone.bits :=
  ⟨soundRun_sound, soundDone_sound, rfl, rfl, rfl, rfl, rfl, rfl, rfl, rfl⟩

/-- Three bytes, of which two complete a symbol, before a sink that opens and takes the burst. -/
theorem witness_WholeSession :
    Sound soundDone ∧ soundDone.phase = .done ∧ 2 = soundDone.cfgM.toNat ∧ 1 = [1#8, 0xFE#8, 3#8].length / 2 ∧
      ({ Env.quiet with
        inbox := .reg (packReg 1#1 0#4 3#32) :: ([1#8, 0xFE#8, 3#8].map Packet.in8 ++ [.reg (packReg 1#1 0#4 4#32)])
        tape := 1 :: ([8] ++ []) } : Env).inbox =
          .reg (packReg 1#1 0#4 3#32) :: ([1#8, 0xFE#8, 3#8].map Packet.in8 ++ [.reg (packReg 1#1 0#4 4#32)]) ∧
      1 ≠ 0 ∧ [8].length = 1 ∧ ∀ x ∈ [8], 8 * soundDone.sps.toNat ≤ x :=
  ⟨soundDone_sound, rfl, by decide, by decide, rfl, by decide, by decide, by decide⟩

/-- The reset configuration; M = `M_MAX` with `SPS_MAX` samples per symbol. -/
theorem witness_StartUp :
    (1 ≤ (2#32).toNat ∧ (2#32).toNat ≤ Config.mMax ∧ isFinite (dec32 0x42340000#32) = true ∧ (1000000#32 : Word) ≠ 0#32 ∧
      (940#32 : Word) ≠ 0#32 ∧ ceilDiv (1000000#32).toNat (940#32).toNat ≤ Config.spsMax ∧
      (4#32).toNat = 2 ^ (2#32).toNat ∧ (1064#32).toNat = ceilDiv (1000000#32).toNat (940#32).toNat) ∧
      (BitVec.ofNat 32 Config.mMax).toNat = Config.mMax ∧ (BitVec.ofNat 32 (2 ^ Config.mMax)).toNat = 2 ^ Config.mMax ∧
      (BitVec.ofNat 32 Config.spsMax).toNat = Config.spsMax ∧ ceilDiv Config.spsMax (1#32).toNat = Config.spsMax := by
  have h1 := Config.two_le_mMax
  have h2 := Config.mMax_le
  have h3 := Config.spsMax_lt
  have e : ceilDiv (1000000#32).toNat (940#32).toNat = 1064 := by decide +kernel
  refine ⟨⟨by decide, h1, by decide, by decide, by decide, by rw [e]; exact Config.spsMax_ge, by decide,
      by rw [e]; rfl⟩,
    toNat_word (by omega), toNat_word (Config.two_pow_lt (Nat.le_refl _)), toNat_word (by omega), ?_⟩
  simp [ceilDiv]

theorem witness_ResetConfiguration :
    ({ Env.quiet with
      inbox := [.reg (packReg 1#1 0#4 1#32), .reg (packReg 1#1 0#4 2#32), .reg (packReg 1#1 0#4 3#32)]
      tape := 1 :: [] } : Env).inbox =
        [.reg (packReg 1#1 0#4 1#32), .reg (packReg 1#1 0#4 2#32), .reg (packReg 1#1 0#4 3#32)] ∧
      ({ Env.quiet with tape := 1 :: [] } : Env).tape = 1 :: [] ∧ 1 ≠ 0 := ⟨rfl, rfl, by decide⟩

/-- NothingThatSteersASessionChanges, BuiltStateAndHistoriesHaveTheirOnlyWriters, in P_RUN and P_DONE. -/
theorem witness_NothingThatSteers :
    (exec .eoi soundRun = .next (endSession soundRun) ∧ Instr.eoi ≠ .reset ∧ soundRun.phase = .run) ∧
      (exec (.rdreg 1#4 0#32) soundDone = .next (soundDone.returnToHost 4#32) ∧
        Instr.rdreg 1#4 0#32 ≠ .reset ∧ soundDone.phase = .done) :=
  ⟨⟨rfl, by decide, rfl⟩, rfl, by decide, rfl⟩

/-- The operation goes on without a fault. -/
def completes (i : Instr) (s : State) : Bool := leads i s (·.phase != .fault)

/-- OperationsLeaveThePhaseOfTheTable: every arm but the last, whose operations never complete. -/
theorem witness_OperationsLeave :
    (completes .bcon State.reset && completes .openSession { inSession [1] with phase := .ready } &&
      completes .eoi (inSession []) && completes (.rdreg 0#4 0#32) (inState .done) && completes .reset (inState .fault) &&
      completes (.wrregCfgM 0#32) State.reset && completes (.wrregCfgFs 0#32) State.reset &&
      completes (.wrregCfgBaud 0#32) State.reset && completes (.wrregCfgFc 0#32) State.reset &&
      completes (.wrregCfgAngle 0#32) State.reset && completes (.wrregTblRows 0#32) State.reset &&
      completes (.wrregTblCols 0#32) State.reset) = true ∧
      (∃ t, exec .btab builtConst = .next t ∧ t.phase ≠ .fault) ∧
      (∃ t, exec (.push 0xFE#8) (inSession [8]) = .next t ∧ t.phase ≠ .fault) ∧
      ∃ t, exec (.emit (.ofNat _ 2)) (inSession [8]) = .next t ∧ t.phase ≠ .fault := by
  refine ⟨by decide +kernel, ?_, ⟨_, push_row [8], by decide +kernel⟩, ⟨_, emit_inSession, by decide +kernel⟩⟩
  obtain ⟨t, h, _, hp, _⟩ := test_btab
  exact ⟨t, h, by rw [hp]; decide⟩

end Sys2Proof.Tests
end

section
/-! The statements about 00_scope.md: float patterns (R15), the ceiling of a quotient (R13), the reference rounding
(R11), and the two properties of R12 that `Num_ref` has. -/

namespace Sys2Proof.Machine

/-! ### Patterns (00_scope.md R15) -/

/-- The three fields cut out of a pattern are adjacent, so joining them gives the pattern back. -/
@[simp] theorem enc32_dec32 (w : Word) : enc32 (dec32 w) = w := by
  have hhigh : w.extractLsb' 31 1 ++ w.extractLsb' 23 8 = w.extractLsb' 23 9 :=
    BitVec.extractLsb'_append_extractLsb'_eq_extractLsb' rfl
  have hall : w.extractLsb' 23 9 ++ w.extractLsb' 0 23 = w.extractLsb' 0 32 :=
    BitVec.extractLsb'_append_extractLsb'_eq_extractLsb' rfl
  calc enc32 (dec32 w)
      = (w.extractLsb' 31 1 ++ w.extractLsb' 23 8) ++ w.extractLsb' 0 23 := rfl
    _ = w.extractLsb' 0 32 := by rw [hhigh]; exact hall
    _ = w := BitVec.extractLsb'_eq_self

@[simp] theorem dec32_enc32 (f : F32) : dec32 (enc32 f) = f := by
  have hfrac : (enc32 f).extractLsb' 0 23 = f.frac := BitVec.extractLsb'_append_eq_right
  have hexp : (enc32 f).extractLsb' 23 8 = f.exp :=
    (BitVec.extractLsb'_append_eq_of_le (by decide)).trans BitVec.extractLsb'_append_eq_right
  have hsign : (enc32 f).extractLsb' 31 1 = f.sign :=
    (BitVec.extractLsb'_append_eq_of_le (by decide)).trans BitVec.extractLsb'_append_eq_left
  rw [dec32, hsign, hexp, hfrac]

/-- Settles O28: one lemma per direction. -/
theorem floatPatternsRoundTrip : Obligations.FloatPatternsRoundTrip :=
  ⟨enc32_dec32, dec32_enc32⟩

/-! ### The ceiling of a quotient (00_scope.md R13) -/

/-- The model's `ceilDiv` is the library's, whose Galois connection with multiplication says all that R13 asks. -/
theorem ceilDiv_le_iff {a b m : Nat} (hb : 0 < b) : ceilDiv a b ≤ m ↔ a ≤ m * b := by
  rw [Nat.mul_comm]
  exact ceilDiv_le_iff_le_mul hb

/-- Settles O29, from `ceilDiv_le_iff`: its first part is the case `m = ceilDiv a b`. -/
theorem samplesPerSymbolIsTheLeastIntegerNotBelowTheQuotient :
    Obligations.SamplesPerSymbolIsTheLeastIntegerNotBelowTheQuotient :=
  fun _ _ hb => ⟨(ceilDiv_le_iff hb).mp le_rfl, fun _ => (ceilDiv_le_iff hb).mpr⟩

/-! ### What a nearest float is (00_scope.md R11) -/

/-- A nearest float is no farther from `x` than any finite float. -/
theorem IsNearest.dist_le {x : ℝ} {f g : F32} (hf : IsNearest x f) (hg : isFinite g = true) :
    |(floatValue f : ℝ) - x| ≤ |(floatValue g : ℝ) - x| := by
  obtain ⟨_, _, hmin⟩ := hf
  exact (hmin g hg).1

/-- Rounding is exact on the values of finite floats: a distance of 0 is attained. -/
theorem IsNearest.floatValue_eq {x : ℝ} {f g : F32} (hf : IsNearest x f) (hg : isFinite g = true)
    (hx : (floatValue g : ℝ) = x) : floatValue f = floatValue g := by
  have hd : |(floatValue f : ℝ) - x| ≤ 0 := by simpa [hx] using hf.dist_le hg
  have he : (floatValue f : ℝ) = floatValue g := by rw [hx]; exact sub_eq_zero.mp (abs_nonpos_iff.mp hd)
  exact_mod_cast he

/-- Settles O23, by `IsNearest.floatValue_eq`: no float is nearer than one at distance 0. -/
theorem nearestToARepresentableNumberIsExact : Obligations.NearestToARepresentableNumberIsExact :=
  fun _ _ _ hf hg hx => hf.floatValue_eq hg hx

/-- Rounding a representable number gives its float, bit for bit. -/
theorem IsNearest.eq_of_isFloatOf {x : ℚ} {f g : F32} (hf : IsNearest (x : ℝ) f) (hg : IsFloatOf x g) : f = g := by
  refine IsFloatOf.unique ?_ hg
  obtain ⟨hgfin, hgx, _⟩ := hg
  have hv : floatValue f = x := (hf.floatValue_eq hgfin (by rw [hgx])).trans hgx
  obtain ⟨hfin, hzero, _⟩ := hf
  exact ⟨hfin, hv, fun h => hzero (by rw [h, Rat.cast_zero])⟩

/-- Rounding a number of [-1, 1] moves it by at most 2^-25. -/
theorem IsNearest.dist_le_of_abs_le_one {x : ℝ} {f : F32} (hf : IsNearest x f) (hx : |x| ≤ 1) :
    |(floatValue f : ℝ) - x| ≤ 1 / 2 ^ 25 := by
  obtain ⟨g, hg, hd⟩ := exists_float_near hx
  exact (hf.dist_le hg).trans hd

/-! ### Unit magnitude (00_scope.md R12 (b)) -/

/-- The magnitude of a pair moves by no more than its components do: the reverse triangle inequality of the plane. -/
theorem abs_magnitude_sub_le (a b x y : ℝ) :
    |√(a ^ 2 + b ^ 2) - √(x ^ 2 + y ^ 2)| ≤ |a - x| + |b - y| := by
  rw [← Complex.norm_add_mul_I a b, ← Complex.norm_add_mul_I x y]
  refine (abs_norm_sub_norm_le _ _).trans ((Complex.norm_le_abs_re_add_abs_im _).trans_eq ?_)
  simp

/-- The bound EPS_MAG = 2^-23 of `Num_ref` (00_scope.md R12): each component is off by 2^-25 at most. -/
theorem IsNearestPair.abs_magnitude_sub_one_le {t : ℝ} {c : C32}
    (hc : IsNearestPair (Real.cos t) (Real.sin t) c) :
    |√((floatValue c.re : ℝ) ^ 2 + (floatValue c.im : ℝ) ^ 2) - 1| ≤ 1 / 2 ^ 23 := by
  obtain ⟨hre, him⟩ := hc
  have hone : √(Real.cos t ^ 2 + Real.sin t ^ 2) = 1 := by rw [Real.cos_sq_add_sin_sq, Real.sqrt_one]
  calc |√((floatValue c.re : ℝ) ^ 2 + (floatValue c.im : ℝ) ^ 2) - 1|
      ≤ |(floatValue c.re : ℝ) - Real.cos t| + |(floatValue c.im : ℝ) - Real.sin t| :=
        hone ▸ abs_magnitude_sub_le _ _ _ _
    _ ≤ 1 / 2 ^ 25 + 1 / 2 ^ 25 :=
        add_le_add (hre.dist_le_of_abs_le_one (Real.abs_cos_le_one t))
          (him.dist_le_of_abs_le_one (Real.abs_sin_le_one t))
    _ ≤ 1 / 2 ^ 23 := by norm_num

/-- Settles O24, from the rounding errors of the two components. -/
theorem referencePolarHasUnitMagnitude : Obligations.ReferencePolarHasUnitMagnitude :=
  fun _ _ hc => hc.abs_magnitude_sub_one_le

/-! ### What `Num_ref` does (00_scope.md R10, R11) -/

theorem floatValue_one32 : floatValue one32 = 1 := by decide +kernel

theorem isFinite_one32 : isFinite one32 = true := by decide

/-- `polar(1.0, t)` of `Num_ref` is (cos t, sin t), rounded. -/
theorem IsReference.isNearestPair_polar {n : Sys2Proof.Num} (hn : IsReference n) {t : F32} (ht : isFinite t = true) :
    IsNearestPair (Real.cos (floatValue t)) (Real.sin (floatValue t)) (n.polar one32 t) := by
  obtain ⟨round, hround, hrec⟩ := hn
  rw [hrec.polar one32 t isFinite_one32 ht, floatValue_one32, Rat.cast_one, one_mul, one_mul]
  exact ⟨hround _, hround _⟩

/-- `angle(a0, k, M)` of `Num_ref` is the ideal angle, rounded. -/
theorem IsReference.isNearest_angle {n : Sys2Proof.Num} (hn : IsReference n) {a0 : F32} (h0 : isFinite a0 = true)
    (k M : Nat) : IsNearest (idealAngle a0 k M : ℝ) (n.angle a0 k M) := by
  obtain ⟨round, hround, hrec⟩ := hn
  rw [hrec.angle a0 k M h0]
  exact hround _

theorem IsNearestPair.isFinitePair_eq_true {x y : ℝ} {c : C32} (hc : IsNearestPair x y c) :
    isFinitePair c = true := by
  obtain ⟨⟨hre, _⟩, him, _⟩ := hc
  simp [isFinitePair, hre, him]

/-- Settles O25: O24 at the pair that `polar` answers. -/
theorem referenceNumericsHaveUnitMagnitude : Obligations.ReferenceNumericsHaveUnitMagnitude :=
  fun _ hn _ ht =>
    have hc := hn.isNearestPair_polar ht
    ⟨hc.isFinitePair_eq_true, hc.abs_magnitude_sub_one_le⟩

/-- Settles O26: the ideal angle is rounded, and rounding a representable number gives its float. -/
theorem referenceNumericsHaveExactSpacing : Obligations.ReferenceNumericsHaveExactSpacing :=
  fun _ hn _ k M _ h0 hf => (hn.isNearest_angle h0 k M).eq_of_isFloatOf hf

end Sys2Proof.Machine
end

section
/-! The statements about 10_state.md: the step (R46), the reset values (R48), what RDREG and STATUS answer (R24, R26),
what an operation leaves alone (R23, R34, R35, R40 to R45, R49 (e)), and the invariant (R44, R45, R47, R49): from a
sound state every operation that can be offered goes on, to a sound state. -/

namespace Sys2Proof.Machine

/-! ### The step (10_state.md R46) -/

theorem step_of_inbox_nil {s : State} (h : s.env.inbox = []) : step s = .next s := by
  rw [step, State.takePacket, h]

theorem step_of_inbox_cons {s : State} {p : Packet} {ps : List Packet} (h : s.env.inbox = p :: ps) :
    step s = exec (decode p) { s with env := { s.env with inbox := ps } } := by
  rw [step, State.takePacket, h]

/-- Offering a packet and taking it gives the state back. -/
theorem step_offer (s : State) (p : Packet) : step (s.offer p) = exec (decode p) s :=
  step_of_inbox_cons rfl

theorem step_withFetchWord {nbits w : Nat} {i : Instr} (h : decodeTableWord nbits w = some i) (s : State) :
    step (s.withFetchWord nbits w) = exec i s := by
  unfold decodeTableWord at h
  unfold State.withFetchWord
  cases hw : tablePacket nbits w with
  | error e => simp [hw] at h
  | ok p =>
    have hp : decode p = i := by simpa [hw] using h
    exact hp ▸ step_offer s p

/-- Settles O6: one lemma per clause. -/
theorem stepRunsTheOldestOperationOffered : Obligations.StepRunsTheOldestOperationOffered :=
  fun s => ⟨fun _ _ => step_of_inbox_cons, step_of_inbox_nil, fun _ _ _ h => step_withFetchWord h s⟩

/-! ### Reset values (10_state.md R48) -/

/-- Settles O7: the reset state is written out field by field. -/
theorem resetValuesAreThoseOfTheSpec : Obligations.ResetValuesAreThoseOfTheSpec :=
  ⟨rfl, rfl, rfl, rfl, rfl, rfl, rfl, rfl, rfl, rfl, rfl, rfl, rfl, rfl, rfl, rfl, rfl, rfl, rfl⟩

/-! ### Host registers (10_state.md R24, R26) -/

/-- The registers in the order of their numbers. -/
theorem readRegister_eq (s : State) (n : BitVec 4) :
    [0#32, statusWord s, s.errExpect, s.errActual, s.cfgM, s.cfgFs, s.cfgBaud, s.cfgFc, s.cfgAngle, s.tblRows,
      s.tblCols, s.nsym, s.sps, s.rxBit.setWidth 32, s.bitsAccum.setWidth 32, 0#32][n.toNat]? =
      some (readRegister s n) := by
  have hn : n.toNat < 16 := n.isLt
  unfold readRegister
  generalize n.toNat = k at hn
  interval_cases k <;> simp

/-- Settles O16, by `readRegister_eq`. -/
theorem readReturnsTheRegisterAndChangesNothing : Obligations.ReadReturnsTheRegisterAndChangesNothing :=
  fun s n _ => ⟨readRegister s n, readRegister_eq s n, rfl⟩

theorem statusWord_phase (s : State) : (statusWord s).extractLsb' 0 3 = phaseCode s.phase :=
  BitVec.extractLsb'_append_eq_right

theorem statusWord_bit3 (s : State) : (statusWord s).getLsbD 3 = false :=
  (BitVec.getLsbD_append (x := 0#24 ++ causeCode s.cause ++ 0#1)).trans BitVec.getLsbD_append

theorem statusWord_cause (s : State) : (statusWord s).extractLsb' 4 4 = causeCode s.cause :=
  (BitVec.extractLsb'_append_eq_of_le (by decide)).trans <|
    (BitVec.extractLsb'_append_eq_of_le (by decide)).trans BitVec.extractLsb'_append_eq_right

theorem statusWord_high (s : State) : (statusWord s).extractLsb' 8 24 = 0#24 :=
  (BitVec.extractLsb'_append_eq_of_le (by decide)).trans <|
    (BitVec.extractLsb'_append_eq_of_le (by decide)).trans BitVec.extractLsb'_append_eq_left

/-- Settles O17: one lemma per field of STATUS; the codes are as defined. -/
theorem statusHoldsPhaseAndFault : Obligations.StatusHoldsPhaseAndFault := fun s =>
  ⟨statusWord_phase s, statusWord_bit3 s, statusWord_cause s, statusWord_high s, by decide,
    rfl, rfl, rfl, rfl, rfl, rfl, rfl, rfl, rfl, rfl, rfl, rfl, rfl, rfl, rfl⟩

/-! ### What an operation leaves alone (10_state.md R23, R34, R35, R40 to R45, R49 (e)) -/

/-- The operations that run in a session or after it build nothing and write no register of the host. -/
theorem Effect.sameSetup {i : Instr} {s t : State} (h : Effect i s t) (hi : i ≠ .reset)
    (hp : s.phase = .run ∨ s.phase = .done) : SameSetup s t := by
  have hidle : s.phase ≠ .idle := by rcases hp with hp | hp <;> simp [hp]
  have hconst : s.phase ≠ .const := by rcases hp with hp | hp <;> simp [hp]
  cases i with
  | rdreg n d => obtain rfl := h; constructor <;> rfl
  | openSession => obtain ⟨_, rfl⟩ := h; exact beginSession_frame s
  | eoi => obtain ⟨_, rfl⟩ := h; constructor <;> rfl
  | push b =>
    obtain ⟨_, h⟩ := h
    obtain ⟨_, _, setup, _⟩ := pushBit_frame h
    exact setup
  | emit x =>
    obtain ⟨_, h⟩ := h
    obtain ⟨_, _, setup, _⟩ := emitSymbol_frame h
    exact setup
  | reset => exact absurd rfl hi
  | btab => obtain ⟨hc, _⟩ := h; exact absurd hc hconst
  | bcon | wrregCfgM _ | wrregCfgFs _ | wrregCfgBaud _ | wrregCfgFc _ | wrregCfgAngle _ | wrregTblRows _
  | wrregTblCols _ => obtain ⟨hc, _⟩ := h; exact absurd hc hidle
  | cmdUndef _ | illegalStatus _ | illegalErrExpect _ | illegalErrActual _ | illegalNsym _ | illegalSps _
  | illegalRxbit _ | illegalBitsacc _ | illegalReserved15 _ => exact h.elim

/-- Settles O50: an operation does nothing, raises, or has its effect; none of the three touches what steers. -/
theorem nothingThatSteersASessionChanges : Obligations.NothingThatSteersASessionChanges := by
  intro i s t h hi hp
  have setup : SameSetup s t := by
    rcases exec_next h with ⟨_, rfl⟩ | ⟨_, _, _, _, _, rfl⟩ | he
    · constructor <;> rfl
    · constructor <;> rfl
    · exact he.sameSetup hi hp
  obtain ⟨h1, h2, h3, h4, h5, h6, h7, h8, h9, h10, h11, h12⟩ := setup
  exact ⟨h1, h2, h3, h4, h5, h6, h7, h8, h9, h10, h11, h12⟩

/-- `t` holds the fault record of `s` (10_state.md R23). -/
def SameRecord (s t : State) : Prop :=
  t.cause = s.cause ∧ t.errExpect = s.errExpect ∧ t.errActual = s.errActual

/-- Of the effects only those of OPEN, PUSH and EMIT can end in a fault, which is then the first. -/
theorem Effect.sameRecord_or_fault {i : Instr} {s t : State} (h : Effect i s t) (hi : i ≠ .reset) :
    SameRecord s t ∨ (s.phase ≠ .fault ∧ t.phase = .fault) := by
  cases i with
  | rdreg n d => obtain rfl := h; exact .inl ⟨rfl, rfl, rfl⟩
  | bcon => obtain ⟨_, _, _, _, rfl⟩ := h; exact .inl ⟨rfl, rfl, rfl⟩
  | btab =>
    obtain ⟨_, _, _, _, _, _, h⟩ := h
    obtain ⟨_, _, rfl⟩ := fillTables_frame h
    exact .inl ⟨rfl, rfl, rfl⟩
  | openSession =>
    obtain ⟨hp, rfl⟩ := h
    rcases beginSession_cases s with ⟨_, hrec⟩ | hf
    · exact .inl hrec
    · exact .inr ⟨by rcases hp with hp | hp <;> simp [hp], hf⟩
  | push b =>
    obtain ⟨hp, h⟩ := h
    obtain ⟨_, hrec, _⟩ := pushBit_frame h
    by_cases hf : t.phase = .fault
    · exact .inr ⟨by simp [hp], hf⟩
    · exact .inl (hrec hf)
  | emit x =>
    obtain ⟨hp, h⟩ := h
    obtain ⟨_, hrec, _⟩ := emitSymbol_frame h
    by_cases hf : t.phase = .fault
    · exact .inr ⟨by simp [hp], hf⟩
    · exact .inl (hrec hf)
  | reset => exact absurd rfl hi
  | eoi | wrregCfgM _ | wrregCfgFs _ | wrregCfgBaud _ | wrregCfgFc _ | wrregCfgAngle _ | wrregTblRows _
  | wrregTblCols _ => obtain ⟨_, rfl⟩ := h; exact .inl ⟨rfl, rfl, rfl⟩
  | cmdUndef _ | illegalStatus _ | illegalErrExpect _ | illegalErrActual _ | illegalNsym _ | illegalSps _
  | illegalRxbit _ | illegalBitsacc _ | illegalReserved15 _ => exact h.elim

/-- Settles O12: in P_FAULT nothing is recorded, fault entry leads from another phase to P_FAULT, and an effect does
one or the other. -/
theorem faultRecordDescribesTheFirstFault : Obligations.FaultRecordDescribesTheFirstFault := by
  intro i s t h hi
  rcases exec_next h with ⟨_, rfl⟩ | ⟨hf, _, _, _, _, rfl⟩ | he
  · exact .inl ⟨rfl, rfl, rfl⟩
  · exact .inr ⟨hf, rfl⟩
  · exact he.sameRecord_or_fault hi

/-- `t` holds the constellation of `s` (10_state.md R34, R40). -/
def SameConstellation (s t : State) : Prop := t.nsym = s.nsym ∧ t.const = s.const

/-- `t` holds the tables of `s` (10_state.md R35, R41, R42). -/
def SameTables (s t : State) : Prop := t.sps = s.sps ∧ t.tmpl = s.tmpl ∧ t.tbl = s.tbl

/-- `t` holds the histories of `s` (10_state.md R43 to R45). -/
def SameHistories (s t : State) : Prop := t.out = s.out ∧ t.sink = s.sink ∧ t.syms = s.syms

/-- The histories of `s` begin those of `t`. -/
def HistoriesGrow (s t : State) : Prop := s.out <+: t.out ∧ s.sink <+: t.sink ∧ s.syms <+: t.syms

theorem SameHistories.grow {s t : State} (h : SameHistories s t) : HistoriesGrow s t := by
  obtain ⟨hout, hsink, hsyms⟩ := h
  exact ⟨hout ▸ List.prefix_rfl, hsink ▸ List.prefix_rfl, hsyms ▸ List.prefix_rfl⟩

theorem SameSetup.sameConstellation {s t : State} (h : SameSetup s t) : SameConstellation s t := ⟨h.nsym, h.const⟩

theorem SameSetup.sameTables {s t : State} (h : SameSetup s t) : SameTables s t := ⟨h.sps, h.tmpl, h.tbl⟩

/-- From `s` to `t`, operation `i` writes no more than the parts of which it is a writer. -/
def OnlyWriters (i : Instr) (s t : State) : Prop :=
  (i ≠ .bcon → SameConstellation s t) ∧ (i ≠ .btab → SameTables s t) ∧
    (i ≠ .openSession → HistoriesGrow s t) ∧
    (i ≠ .openSession → (∀ b, i ≠ .push b) → (∀ x, i ≠ .emit x) → SameHistories s t)

theorem OnlyWriters.of_same {i : Instr} {s t : State} (hc : SameConstellation s t) (ht : SameTables s t)
    (hh : SameHistories s t) : OnlyWriters i s t :=
  ⟨fun _ => hc, fun _ => ht, fun _ => hh.grow, fun _ _ _ => hh⟩

theorem Effect.onlyWriters {i : Instr} {s t : State} (h : Effect i s t) (hi : i ≠ .reset) : OnlyWriters i s t := by
  cases i with
  | rdreg n d => obtain rfl := h; exact .of_same ⟨rfl, rfl⟩ ⟨rfl, rfl, rfl⟩ ⟨rfl, rfl, rfl⟩
  | bcon =>
    obtain ⟨_, _, _, _, rfl⟩ := h
    have hh : SameHistories s _ := ⟨rfl, rfl, rfl⟩
    exact ⟨fun hne => absurd rfl hne, fun _ => ⟨rfl, rfl, rfl⟩, fun _ => hh.grow, fun _ _ _ => hh⟩
  | btab =>
    obtain ⟨_, _, _, _, _, _, h⟩ := h
    obtain ⟨_, _, rfl⟩ := fillTables_frame h
    have hh : SameHistories s _ := ⟨rfl, rfl, rfl⟩
    exact ⟨fun _ => ⟨rfl, rfl⟩, fun hne => absurd rfl hne, fun _ => hh.grow, fun _ _ _ => hh⟩
  | openSession =>
    obtain ⟨_, rfl⟩ := h
    have setup := beginSession_frame s
    exact ⟨fun _ => setup.sameConstellation, fun _ => setup.sameTables, fun hne => absurd rfl hne,
      fun hne => absurd rfl hne⟩
  | push b =>
    obtain ⟨_, h⟩ := h
    obtain ⟨_, _, setup, hgrow⟩ := pushBit_frame h
    exact ⟨fun _ => setup.sameConstellation, fun _ => setup.sameTables, fun _ => hgrow,
      fun _ hne => absurd rfl (hne b)⟩
  | emit x =>
    obtain ⟨_, h⟩ := h
    obtain ⟨_, _, setup, hgrow⟩ := emitSymbol_frame h
    exact ⟨fun _ => setup.sameConstellation, fun _ => setup.sameTables, fun _ => hgrow,
      fun _ _ hne => absurd rfl (hne x)⟩
  | reset => exact absurd rfl hi
  | eoi | wrregCfgM _ | wrregCfgFs _ | wrregCfgBaud _ | wrregCfgFc _ | wrregCfgAngle _ | wrregTblRows _
  | wrregTblCols _ => obtain ⟨_, rfl⟩ := h; exact .of_same ⟨rfl, rfl⟩ ⟨rfl, rfl, rfl⟩ ⟨rfl, rfl, rfl⟩
  | cmdUndef _ | illegalStatus _ | illegalErrExpect _ | illegalErrActual _ | illegalNsym _ | illegalSps _
  | illegalRxbit _ | illegalBitsacc _ | illegalReserved15 _ => exact h.elim

/-- Settles O52: fault entry writes none of these parts, and an effect those of its operation. -/
theorem builtStateAndHistoriesHaveTheirOnlyWriters : Obligations.BuiltStateAndHistoriesHaveTheirOnlyWriters := by
  intro i s t h hi
  rcases exec_next h with ⟨_, rfl⟩ | ⟨_, _, _, _, _, rfl⟩ | he
  · exact OnlyWriters.of_same ⟨rfl, rfl⟩ ⟨rfl, rfl, rfl⟩ ⟨rfl, rfl, rfl⟩
  · exact OnlyWriters.of_same ⟨rfl, rfl⟩ ⟨rfl, rfl, rfl⟩ ⟨rfl, rfl, rfl⟩
  · exact he.onlyWriters hi

/-! ### What the invariant takes from the set-up -/

theorem SameSetup.constellationBuilt {s t : State} (e : SameSetup s t) (h : Safety.ConstellationBuilt s) :
    Safety.ConstellationBuilt t :=
  Safety.constellationBuilt_congr h e.cfgM e.cfgAngle e.nsym e.const

theorem SameSetup.tableRow_eq {s t : State} (e : SameSetup s t) : Safety.tableRow t = Safety.tableRow s :=
  funext (Safety.tableRow_congr e.cfgM e.cfgAngle e.cfgFs e.cfgFc e.sps)

end Sys2Proof.Machine

namespace Sys2Proof.Safety

open Sys2Proof.Machine

/-- The histories and the bits are all that a session's output depends on, besides the set-up. -/
theorem SessionOutput.congr {s t : State} (h : SessionOutput s) (e : SameSetup s t) (hsyms : t.syms = s.syms)
    (hout : t.out = s.out) (hsink : t.sink = s.sink) (hbits : t.bits = s.bits) : SessionOutput t where
  syms := by rw [hsyms, hbits, e.cfgM]; exact h.syms
  out := by rw [hout, hbits, e.cfgM, e.tableRow_eq]; exact h.out
  sink := by rw [hsink, hout]; exact h.sink

/-- At the start of a session nothing has been taken and nothing emitted (45_session.md R157). -/
theorem SessionOutput.of_nil {s : State} (hsyms : s.syms = []) (hout : s.out = []) (hsink : s.sink = [])
    (hbits : s.bits = []) : SessionOutput s where
  syms := by simp [hsyms, hbits, symbolsOf]
  out := by simp [hout, hbits, symbolsOf]
  sink := by rw [hsink, hout]; rfl

/-- A bit that completes no symbol adds nothing to the output. -/
theorem SessionOutput.stay {s t : State} (h : SessionOutput s) (e : SameSetup s t) {b : BitVec 1}
    (hpos : 0 < s.cfgM.toNat) (hstay : s.bits.length % s.cfgM.toNat + 1 ≠ s.cfgM.toNat)
    (hbits : t.bits = s.bits ++ [b]) (hsyms : t.syms = s.syms) (hout : t.out = s.out) (hsink : t.sink = s.sink) :
    SessionOutput t where
  syms := by rw [hsyms, hbits, e.cfgM, symbolsOf_stay b hpos hstay]; exact h.syms
  out := by rw [hout, hbits, e.cfgM, e.tableRow_eq, symbolsOf_stay b hpos hstay]; exact h.out
  sink := by rw [hsink, hout]; exact h.sink

/-- A bit that completes a symbol adds the symbol's index and its row. -/
theorem SessionOutput.full {s t : State} (h : SessionOutput s) (e : SameSetup s t) {b : BitVec 1}
    {idx : BitVec Config.mMax} (hpos : 0 < s.cfgM.toNat)
    (hfull : s.bits.length % s.cfgM.toNat + 1 = s.cfgM.toNat)
    (hidx : idx.toNat = 2 * bitsValue (partialOf s.cfgM.toNat s.bits) + b.toNat)
    (hbits : t.bits = s.bits ++ [b]) (hsyms : t.syms = s.syms ++ [idx])
    (hout : t.out = s.out ++ tableRow s idx.toNat) (hsink : t.sink = s.sink ++ ser (tableRow s idx.toNat)) :
    SessionOutput t where
  syms := by rw [hsyms, hbits, e.cfgM, symbolsOf_full b hpos hfull]; simp [h.syms, hidx]
  out := by rw [hout, hbits, e.cfgM, e.tableRow_eq, symbolsOf_full b hpos hfull]; simp [← h.out, hidx]
  sink := by rw [hsink, hout, ser_append, h.sink]

/-! ### Soundness, phase by phase -/

theorem Sound.cause_eq_none {s : State} (h : Sound s) (hp : s.phase ≠ .fault) : s.cause = .none :=
  not_not.mp fun hc => hp (h.faultRecord.mp hc)

theorem Sound.sinkOpen_eq_false {s : State} (h : Sound s) (hp : s.phase ≠ .run) : s.sinkOpen = false :=
  Bool.eq_false_iff.mpr fun ho => hp (h.sinkState.mp ho)

/-- The environment is no part of the block, and the invariant says nothing of it. -/
theorem Sound.withEnv {s : State} (h : Sound s) (e : Env) : Sound { s with env := e } :=
  have setup : SameSetup s { s with env := e } := by constructor <;> rfl
  { constWf := h.constWf
    tmplWf := h.tmplWf
    tblWf := h.tblWf
    faultRecord := h.faultRecord
    sinkState := h.sinkState
    built := fun hp => setup.constellationBuilt (h.built hp)
    table := fun hp => tableBuilt_congr (h.table hp) setup
    cleared := h.cleared
    running := h.running
    session := fun hp => (h.session hp).congr setup rfl rfl rfl rfl
    noSession := h.noSession
    unbuilt := h.unbuilt
    untabled := h.untabled }

/-- Of a state in P_FAULT the invariant asks canonical memories, a cause and a closed sink; fault entry gives the last
two (60_exceptions.md R180). -/
theorem sound_raise {s : State} {c : Cause} {e a : Word} (hc : c ≠ .none) (hconst : s.const.wf constSize = true)
    (htmpl : s.tmpl.wf tmplSize = true) (htbl : s.tbl.wf tblSize = true)
    (hsink : s.sinkOpen = true → s.phase = .run) : Sound (s.raise c e a) where
  constWf := hconst
  tmplWf := htmpl
  tblWf := htbl
  faultRecord := by simp [hc]
  sinkState := by simpa using mt hsink
  built := by simp
  table := by simp
  cleared := by simp
  running := by simp
  session := by simp
  noSession := by simp
  unbuilt := by simp
  untabled := by simp

theorem Sound.raise {s : State} (h : Sound s) {c : Cause} (hc : c ≠ .none) (e a : Word) : Sound (s.raise c e a) :=
  sound_raise hc h.constWf h.tmplWf h.tblWf h.sinkState.mp

/-- Of a state in P_IDLE the invariant asks nothing of the configuration registers (40_register_access.md R93). -/
theorem Sound.withConfig {s : State} (h : Sound s) (hp : s.phase = .idle)
    (cfgM cfgFs cfgBaud cfgFc cfgAngle tblRows tblCols : Word) :
    Sound { s with cfgM, cfgFs, cfgBaud, cfgFc, cfgAngle, tblRows, tblCols } where
  constWf := h.constWf
  tmplWf := h.tmplWf
  tblWf := h.tblWf
  faultRecord := h.faultRecord
  sinkState := h.sinkState
  built := by simp [hp]
  table := by simp [hp]
  cleared := h.cleared
  running := by simp [hp]
  session := by simp [hp]
  noSession := h.noSession
  unbuilt := h.unbuilt
  untabled := h.untabled

/-- Of a state in or after a session the invariant asks the set-up of a sound state, and of the rest what the session
has done so far. -/
theorem Sound.of_session {s t : State} (h : Sound s) (hs : s.phase = .ready ∨ s.phase = .run ∨ s.phase = .done)
    (setup : SameSetup s t) (ht : t.phase = .run ∨ t.phase = .done) (hcause : t.cause = s.cause)
    (hsink : t.sinkOpen = true ↔ t.phase = .run)
    (hdone : t.phase ≠ .run → t.rxBit = 0 ∧ t.bitsAccum = 0)
    (hrun : t.phase = .run → t.bitsAccum.toNat = t.bits.length % t.cfgM.toNat ∧
      t.rxBit.toNat = bitsValue (partialOf t.cfgM.toNat t.bits))
    (hout : SessionOutput t) : Sound t where
  constWf := by rw [setup.const]; exact h.constWf
  tmplWf := by rw [setup.tmpl]; exact h.tmplWf
  tblWf := by rw [setup.tbl]; exact h.tblWf
  faultRecord := by
    have hsf : s.phase ≠ .fault := by rcases hs with hs | hs | hs <;> simp [hs]
    have htf : t.phase ≠ .fault := by rcases ht with ht | ht <;> simp [ht]
    simp [hcause, h.cause_eq_none hsf, htf]
  sinkState := hsink
  built := fun _ => setup.constellationBuilt (h.built (.inr hs))
  table := fun _ => tableBuilt_congr (h.table hs) setup
  cleared := fun hr _ => hdone hr
  running := hrun
  session := fun _ => hout
  noSession := by rcases ht with ht | ht <;> simp [ht]
  unbuilt := by rcases ht with ht | ht <;> simp [ht]
  untabled := by rcases ht with ht | ht <;> simp [ht]

/-! ### Reset -/

/-- Settles O41: after reset the memories and histories are empty, and P_IDLE asks nothing else. -/
theorem resetStateIsSound : Obligations.ResetStateIsSound := fun e =>
  { constWf := rfl
    tmplWf := rfl
    tblWf := rfl
    faultRecord := by simp [State.reset]
    sinkState := by simp [State.reset]
    built := by simp [State.reset]
    table := by simp [State.reset]
    cleared := fun _ _ => ⟨rfl, rfl⟩
    running := by simp [State.reset]
    session := by simp [State.reset]
    noSession := fun _ => ⟨rfl, rfl, rfl, rfl⟩
    unbuilt := fun _ => ⟨rfl, rfl⟩
    untabled := fun _ => rfl }

/-! ### The builders -/

/-- BCON's work on a sound state: one of two faults, or the constellation that P_CONST asks (R49 (a)). -/
theorem Sound.buildConstellation {s : State} (h : Sound s) (hp : s.phase = .idle) :
    Sound (buildConstellation Config.num s) := by
  rcases buildConstellation_cases Config.num s with ⟨_, e⟩ | ⟨_, _, _, e⟩ | ⟨h1, hmax, hangle, e⟩ <;> rw [e]
  · exact h.raise (by simp) _ _
  · exact h.raise (by simp) _ _
  · have hnsym : (BitVec.ofNat 32 (2 ^ s.cfgM.toNat)).toNat = 2 ^ s.cfgM.toNat := Config.toNat_ofNat_two_pow hmax
    have hsize : 2 ^ s.cfgM.toNat ≤ constSize := two_pow_le_constSize hmax
    exact
      { constWf := wf_writeList h.constWf (by simpa using hsize)
        tmplWf := h.tmplWf
        tblWf := h.tblWf
        faultRecord := by simp [h.cause_eq_none (by simp [hp])]
        sinkState := by simp [h.sinkOpen_eq_false (by simp [hp])]
        built := fun _ =>
          { mPos := h1
            mMax := hmax
            nsym := hnsym
            angle := hangle
            entries := fun k hk => by
              replace hk : k < 2 ^ s.cfgM.toNat := hnsym ▸ hk
              rw [constAt_eq, if_pos (by omega), read_writeList, constellation_length, if_pos (by omega)]
              exact constellation_getElem? _ _ hk }
        table := by simp
        cleared := fun _ _ => h.cleared (by simp [hp]) (by simp [hp])
        running := by simp
        session := by simp
        noSession := fun _ => h.noSession (.inl hp)
        unbuilt := by simp
        untabled := fun _ => (h.unbuilt hp).2 }

theorem ceilDiv_pos {a b : Nat} (ha : 0 < a) (hb : 0 < b) : 0 < ceilDiv a b :=
  Nat.div_pos (by omega) hb

theorem ConstellationBuilt.readConst_eq {s : State} (h : ConstellationBuilt s) {r : Nat} (hr : r < s.nsym.toNat) :
    readConst s.const r = .ok ⟨one32, Config.num.angle (dec32 s.cfgAngle) r s.cfgM.toNat⟩ :=
  toOption_eq_some.mp (h.entries r hr)

/-- What BTAB writes past its checks are the tables of R49 (b). -/
theorem ConstellationBuilt.tableBuilt {s : State} {n : Nat} {tbl : Mem C32} (hb : ConstellationBuilt s)
    (hfs : s.cfgFs ≠ 0#32) (hbaud : s.cfgBaud ≠ 0#32) (hn : n = ceilDiv s.cfgFs.toNat s.cfgBaud.toNat)
    (hmax : n ≤ Config.spsMax) (hrows : s.tblRows = s.nsym) (hcols : s.tblCols.toNat = n)
    (htbl : ∀ r i, r < s.nsym.toNat → i < n → tbl.read (tblAddress r i) = some (tableEntry s r i)) :
    TableBuilt
      { s with
        tmpl := s.tmpl.writeList 0 (carrier Config.num s.cfgFc s.cfgFs n)
        tbl := tbl, sps := BitVec.ofNat 32 n, phase := .ready } := by
  have hsps : (BitVec.ofNat 32 n).toNat = n := Config.toNat_ofNat_sps hmax
  have hpos : 0 < n := by
    rw [hn]
    exact ceilDiv_pos (Nat.pos_of_ne_zero (by simpa [BitVec.toNat_eq] using hfs))
      (Nat.pos_of_ne_zero (by simpa [BitVec.toNat_eq] using hbaud))
  exact
    { fsPos := hfs
      baudPos := hbaud
      sps := hsps.trans hn
      spsPos := hsps.symm ▸ hpos
      spsMax := hsps.symm ▸ hmax
      rows := hrows
      cols := BitVec.eq_of_toNat_eq (hcols.trans hsps.symm)
      template := fun i hi => by
        replace hi : i < n := hsps ▸ hi
        rw [tmplAt_eq, if_pos (by simp only [tmplSize]; omega), read_writeList, carrier_length,
          if_pos (by omega)]
        exact carrier_getElem? _ _ _ hi
      table := fun r i hr hi => by
        replace hi : i < n := hsps ▸ hi
        have hrow : r < constSize := (readConst_eq_ok.mp (hb.readConst_eq hr)).1
        have hi' : i < Config.spsMax := by omega
        rw [tblAt_eq, if_pos ⟨hi', tblAddress_lt hrow hi'⟩]
        exact htbl r i hr hi }

/-- BTAB's work past its checks: every symbol it reads has been built, and what it leaves is sound in P_READY. -/
theorem Sound.exists_fillTables {s : State} {n : Nat} (h : Sound s) (hp : s.phase = .const) (hfs : s.cfgFs ≠ 0#32)
    (hbaud : s.cfgBaud ≠ 0#32) (hn : n = ceilDiv s.cfgFs.toNat s.cfgBaud.toNat) (hmax : n ≤ Config.spsMax)
    (hrows : s.tblRows = s.nsym) (hcols : s.tblCols.toNat = n) :
    ∃ t, fillTables Config.num n s = .ok t ∧ Sound t := by
  have hb := h.built (.inl hp)
  obtain ⟨tbl, hfill, htbl, hwf⟩ := fillTables_ok (num := Config.num) hmax fun _ => hb.readConst_eq
  refine ⟨_, hfill, ?_⟩
  exact
    { constWf := h.constWf
      tmplWf := wf_writeList h.tmplWf (by simpa [tmplSize] using hmax)
      tblWf := hwf h.tblWf
      faultRecord := by simp [h.cause_eq_none (by simp [hp])]
      sinkState := by simp [h.sinkOpen_eq_false (by simp [hp])]
      built := fun _ => constellationBuilt_congr hb rfl rfl rfl rfl
      table := fun _ => hb.tableBuilt hfs hbaud hn hmax hrows hcols fun r i hr hi =>
        (htbl r i (by omega)).trans (if_pos ⟨hr, hi⟩)
      cleared := fun _ _ => h.cleared (by simp [hp]) (by simp [hp])
      running := by simp
      session := by simp
      noSession := fun _ => h.noSession (.inr (.inl hp))
      unbuilt := by simp
      untabled := by simp }

/-- BTAB's work on a sound state: one of five faults, or the tables. -/
theorem Sound.exists_buildTables {s : State} (h : Sound s) (hp : s.phase = .const) :
    ∃ t, buildTables Config.num s = .ok t ∧ Sound t := by
  rcases buildTables_cases Config.num s with
    ⟨_, e⟩ | ⟨_, _, e⟩ | ⟨_, _, _, e⟩ | ⟨_, _, _, _, e⟩ | ⟨_, _, _, _, _, e⟩ | ⟨hfs, hbaud, hmax, hrows, hcols, e⟩
  case inr.inr.inr.inr.inr =>
    obtain ⟨t, ht, hs⟩ := h.exists_fillTables hp hfs hbaud rfl hmax hrows hcols
    exact ⟨t, e.trans ht, hs⟩
  all_goals exact ⟨_, e, h.raise (by simp) _ _⟩

/-! ### OPEN and EOI -/

theorem beginSession_eq (s : State) :
    beginSession s = { s.startSession.answered with sink := [], sinkOpen := true, phase := .run } ∨
      beginSession s = s.startSession.answered.raise .ioOpen 0#32 0#32 := by
  unfold beginSession
  simp only
  split
  · exact .inl rfl
  · exact .inr rfl

/-- OPEN's work on a sound state: a session in which nothing has been taken, or E_IO_OPEN. -/
theorem Sound.beginSession {s : State} (h : Sound s) (hp : s.phase = .ready ∨ s.phase = .done) :
    Sound (beginSession s) := by
  rcases beginSession_eq s with e | e <;> rw [e]
  · refine h.of_session (hp.imp_right .inr) (by constructor <;> rfl) (.inl rfl) rfl (by simp) (by simp) (fun _ => ?_)
      (.of_nil rfl rfl rfl rfl)
    simp [partialOf, bitsValue]
  · exact sound_raise (by simp) h.constWf h.tmplWf h.tblWf h.sinkState.mp

/-- EOI's work on a sound state keeps the histories, drops the left-over bits and closes the sink
(45_session.md R158, R159, R163). -/
theorem Sound.endSession {s : State} (h : Sound s) (hp : s.phase = .run) : Sound (endSession s) :=
  have setup : SameSetup s (Machine.endSession s) := by constructor <;> rfl
  h.of_session (.inr (.inl hp)) setup (.inr rfl) rfl (by simp [Machine.endSession])
    (fun _ => ⟨rfl, rfl⟩) (by simp [Machine.endSession]) ((h.session (.inl hp)).congr setup rfl rfl rfl rfl)

/-! ### PUSH -/

/-- A partial symbol and one more bit are a number of at most `m` bits (43_bit_accumulator.md R130). -/
theorem bitsValue_partialOf_lt {m : Nat} (hm : 0 < m) (l : List (BitVec 1)) (b : BitVec 1) :
    2 * bitsValue (partialOf m l) + b.toNat < 2 ^ m :=
  calc 2 * bitsValue (partialOf m l) + b.toNat
      = bitsValue (partialOf m l ++ [b]) := (bitsValue_append _ b).symm
    _ < 2 ^ (partialOf m l ++ [b]).length := bitsValue_lt _
    _ ≤ 2 ^ m := Nat.pow_le_pow_right (by omega) (by
        rw [List.length_append, partialOf_length]
        exact Nat.mod_lt _ hm)

theorem pushBit_of_incomplete {b : BitVec 1} {s : State} (hc : (s.bitsAccum + 1).toNat ≠ s.cfgM.toNat) :
    pushBit b s = .ok (s.shiftIn b) := by
  simp only [pushBit, symbolComplete, shiftIn_bitsAccum, shiftIn_cfgM, beq_eq_false_iff_ne.mpr hc, Bool.false_eq_true,
    ↓reduceIte]

theorem pushBit_of_complete {b : BitVec 1} {s u : State} (hc : (s.bitsAccum + 1).toNat = s.cfgM.toNat)
    (hu : emitSymbol (s.shiftIn b).rxBit (s.shiftIn b) = .ok u) :
    pushBit b s = .ok (if u.phase = .fault then u else u.clearAccumulator) := by
  rw [shiftIn_rxBit] at hu
  simp only [pushBit, symbolComplete, shiftIn_bitsAccum, shiftIn_cfgM, hc, beq_self_eq_true, ↓reduceIte,
    shiftIn_rxBit, hu, faulted_iff]
  split <;> rfl

/-- A row of a built table can be read, and is the row that BTAB computed (44_sample_emitter.md R142). -/
theorem TableBuilt.emitSymbol_eq {s : State} (h : TableBuilt s) {idx : BitVec Config.mMax}
    (hidx : idx.toNat < s.nsym.toNat) : emitSymbol idx s = .ok (s.emitRow idx (tableRow s idx.toNat)) :=
  emitSymbol_ok (by simp) fun i hi => by rw [h.table _ i hidx hi]; simp [tableRow, hi]

/-- Counting one more bit of a session. -/
theorem Sound.bitsAccum_add_one {s : State} (h : Sound s) (hp : s.phase = .run) :
    (s.bitsAccum + 1).toNat = s.bits.length % s.cfgM.toNat + 1 := by
  have hb := h.built (by simp [hp])
  obtain ⟨hcount, _⟩ := h.running hp
  have hlt := Nat.mod_lt s.bits.length hb.mPos
  have hmax := hb.mMax
  rw [Config.toNat_count_add_one (by omega), hcount]

/-- Shifting one more bit into the partial symbol of a session loses none of it (43_bit_accumulator.md R130). -/
theorem Sound.shiftBit_rxBit {s : State} (h : Sound s) (hp : s.phase = .run) (b : BitVec 1) :
    (shiftBit s.cfgM.toNat s.rxBit b).toNat = 2 * bitsValue (partialOf s.cfgM.toNat s.bits) + b.toNat := by
  have hb := h.built (by simp [hp])
  obtain ⟨_, hvalue⟩ := h.running hp
  rw [shiftBit_toNat (by have := Config.two_le_mMax; omega), Nat.min_eq_left hb.mMax, hvalue,
    Nat.mod_eq_of_lt (bitsValue_partialOf_lt hb.mPos _ b)]

/-- A bit that completes no symbol. -/
theorem Sound.shiftIn {s : State} (h : Sound s) (hp : s.phase = .run) (b : BitVec 1)
    (hc : (s.bitsAccum + 1).toNat ≠ s.cfgM.toNat) : Sound (s.shiftIn b) := by
  have setup : SameSetup s (s.shiftIn b) := by constructor <;> rfl
  have hpos := (h.built (by simp [hp])).mPos
  have hstay : s.bits.length % s.cfgM.toNat + 1 ≠ s.cfgM.toNat := h.bitsAccum_add_one hp ▸ hc
  refine h.of_session (.inr (.inl hp)) setup (.inl hp) rfl h.sinkState (by simp [hp]) (fun _ => ⟨?_, ?_⟩)
    ((h.session (.inl hp)).stay setup hpos hstay rfl rfl rfl rfl)
  · rw [shiftIn_bitsAccum, h.bitsAccum_add_one hp]
    simp [(div_mod_stay hpos hstay).2]
  · simp [h.shiftBit_rxBit hp, partialOf_stay b hpos hstay, bitsValue_append]

/-- A bit that completes a symbol: its row is emitted, and the sink takes the burst whole, which leaves a session at a
symbol boundary, or not, which is E_IO_SHORT (44_sample_emitter.md R143 to R146; 43_bit_accumulator.md R129). -/
theorem Sound.exists_emitSymbol {s : State} (h : Sound s) (hp : s.phase = .run) (b : BitVec 1)
    (hc : (s.bitsAccum + 1).toNat = s.cfgM.toNat) :
    ∃ u, emitSymbol (s.shiftIn b).rxBit (s.shiftIn b) = .ok u ∧
      Sound (if u.phase = .fault then u else u.clearAccumulator) := by
  have setup : SameSetup s (s.shiftIn b) := by constructor <;> rfl
  have hb := h.built (by simp [hp])
  have hpos := hb.mPos
  have hfull : s.bits.length % s.cfgM.toNat + 1 = s.cfgM.toNat := h.bitsAccum_add_one hp ▸ hc
  have hidx := h.shiftBit_rxBit hp b
  have hlt : (shiftBit s.cfgM.toNat s.rxBit b).toNat < s.nsym.toNat := by
    rw [hb.nsym, hidx]
    exact bitsValue_partialOf_lt hpos _ b
  refine ⟨_, (tableBuilt_congr (h.table (by simp [hp])) setup).emitSymbol_eq hlt, ?_⟩
  rw [setup.tableRow_eq]
  rcases emitRow_cases (s := s.shiftIn b) (idx := (s.shiftIn b).rxBit) (tableRow_length s _) with
    ⟨_, e⟩ | ⟨_, e⟩ <;> rw [e]
  · rw [if_neg (by simp [hp])]
    refine h.of_session (.inr (.inl hp)) (by constructor <;> rfl) (.inl hp) rfl h.sinkState (by simp [hp])
      (fun _ => ?_) ((h.session (.inl hp)).full (by constructor <;> rfl) hpos hfull hidx rfl rfl rfl rfl)
    simp [(div_mod_full hpos hfull).2, partialOf_full b hpos hfull, bitsValue]
  · rw [if_pos (by simp)]
    exact sound_raise (by simp) h.constWf h.tmplWf h.tblWf h.sinkState.mp

/-- PUSH's work on a sound state. -/
theorem Sound.exists_pushBit {s : State} (h : Sound s) (hp : s.phase = .run) (b : BitVec 1) :
    ∃ t, pushBit b s = .ok t ∧ Sound t := by
  by_cases hc : (s.bitsAccum + 1).toNat = s.cfgM.toNat
  · obtain ⟨u, hu, hs⟩ := h.exists_emitSymbol hp b hc
    exact ⟨_, pushBit_of_complete hc hu, hs⟩
  · exact ⟨_, pushBit_of_incomplete hc, h.shiftIn hp b hc⟩

/-! ### Operations, steps and runs -/

/-- The outcome is a next state, and a sound one. -/
def GoesOnSound (o : Result) : Prop := ∃ t, o = .next t ∧ Sound t

theorem goesOnSound_next {t : State} (h : Sound t) : GoesOnSound (.next t) := ⟨t, rfl, h⟩

theorem goesOnSound_finish {x : Except Fault State} (h : ∃ t, x = .ok t ∧ Sound t) : GoesOnSound (finish x) := by
  obtain ⟨t, rfl, ht⟩ := h
  exact ⟨t, rfl, ht⟩

/-- A phase check leaves only the phases that the operation needs to look at. -/
theorem Sound.goesOnSound_inPhase {s : State} (h : Sound s) {needs : Phase → Bool} {want : Phase}
    {op : State → Result} (hop : needs s.phase = true → GoesOnSound (op s)) :
    GoesOnSound (inPhase needs want s op) := by
  by_cases hf : s.phase = .fault
  · rw [inPhase_fault hf]
    exact goesOnSound_next h
  · cases hn : needs s.phase with
    | true =>
      rw [inPhase_needed hf hn]
      exact hop hn
    | false =>
      rw [inPhase_wrong hf hn]
      exact goesOnSound_next (h.raise (by simp) _ _)

theorem Sound.goesOnSound_illegalWrite {s : State} (h : Sound s) (n d : Word) : GoesOnSound (illegalWrite n d s) := by
  unfold Machine.illegalWrite
  split
  · exact goesOnSound_next h
  · exact goesOnSound_next (h.raise (by simp) _ _)

theorem Sound.goesOnSound_writeConfig {s : State} (h : Sound s) {put : State → State}
    (hput : s.phase = .idle → Sound (put s)) : GoesOnSound (writeConfig put s) :=
  h.goesOnSound_inPhase fun hn => goesOnSound_next (hput (by simpa using hn))

/-- Every operation that can be offered goes on from a sound state, to a sound state. (EMIT cannot be offered,
30_encoding.md R85; run on its own it would emit a symbol that no bits stand for.) -/
theorem Sound.goesOnSound_exec {s : State} (h : Sound s) (i : Instr) (hi : ∀ x, i ≠ .emit x) :
    GoesOnSound (exec i s) := by
  cases i with
  | rdreg n d => exact goesOnSound_next (h.withEnv _)
  | bcon =>
    unfold exec execBcon
    exact h.goesOnSound_inPhase fun hn => goesOnSound_next (h.buildConstellation (by simpa using hn))
  | btab =>
    unfold exec execBtab
    exact h.goesOnSound_inPhase fun hn => goesOnSound_finish (h.exists_buildTables (by simpa using hn))
  | openSession =>
    unfold exec execOpenSession
    exact h.goesOnSound_inPhase fun hn => goesOnSound_next (h.beginSession (by simpa using hn))
  | eoi =>
    unfold exec execEoi
    exact h.goesOnSound_inPhase fun hn => goesOnSound_next (h.endSession (by simpa using hn))
  | push b =>
    unfold exec execPush
    exact h.goesOnSound_inPhase fun hn => goesOnSound_finish (h.exists_pushBit (by simpa using hn) _)
  | emit x => exact absurd rfl (hi x)
  | reset => exact goesOnSound_next (resetStateIsSound _)
  | wrregCfgM d =>
    unfold exec execWrregCfgM
    exact h.goesOnSound_writeConfig fun hp => h.withConfig hp ..
  | wrregCfgFs d =>
    unfold exec execWrregCfgFs
    exact h.goesOnSound_writeConfig fun hp => h.withConfig hp ..
  | wrregCfgBaud d =>
    unfold exec execWrregCfgBaud
    exact h.goesOnSound_writeConfig fun hp => h.withConfig hp ..
  | wrregCfgFc d =>
    unfold exec execWrregCfgFc
    exact h.goesOnSound_writeConfig fun hp => h.withConfig hp ..
  | wrregCfgAngle d =>
    unfold exec execWrregCfgAngle
    exact h.goesOnSound_writeConfig fun hp => h.withConfig hp ..
  | wrregTblRows d =>
    unfold exec execWrregTblRows
    exact h.goesOnSound_writeConfig fun hp => h.withConfig hp ..
  | wrregTblCols d =>
    unfold exec execWrregTblCols
    exact h.goesOnSound_writeConfig fun hp => h.withConfig hp ..
  | cmdUndef d | illegalStatus d | illegalErrExpect d | illegalErrActual d | illegalNsym d | illegalSps d
  | illegalRxbit d | illegalBitsacc d | illegalReserved15 d => exact h.goesOnSound_illegalWrite _ d

theorem Sound.goesOnSound_step {s : State} (h : Sound s) : GoesOnSound (step s) := by
  rcases step_cases s with ⟨_, e⟩ | ⟨p, ps, _, e⟩ <;> rw [e]
  · exact goesOnSound_next h
  · exact (h.withEnv _).goesOnSound_exec _ (decode_ne_emit p)

/-- Settles O42: a step has one outcome, and `Sound.goesOnSound_step` says that it is sound. -/
theorem stepKeepsTheInvariant : Obligations.StepKeepsTheInvariant := by
  intro s t h ht
  obtain ⟨u, hu, hs⟩ := h.goesOnSound_step
  rw [hu, Host.Outcome.next.injEq] at ht
  exact ht ▸ hs

/-- Settles O44: the reset state is sound, and from a sound state every step goes on to a sound state. -/
theorem everyRunFromResetStaysSound : Obligations.EveryRunFromResetStaysSound := fun e k =>
  core_run_keeps Sys2Proof.core Sound (fun _ h => h.goesOnSound_step) k _ (resetStateIsSound e)

end Sys2Proof.Safety
end

section
/-! The statement about 20_memory.md: the order of the bytes of a sample (R55, R56). -/

namespace Sys2Proof.Machine

/-- R55, R146: `le32` cuts each pattern from its low end, and that of I comes before that of Q. -/
theorem serSample_eq_bytes (c : C32) : serSample c =
    [(enc32 c.re).extractLsb' 0 8, (enc32 c.re).extractLsb' 8 8, (enc32 c.re).extractLsb' 16 8,
      (enc32 c.re).extractLsb' 24 8, (enc32 c.im).extractLsb' 0 8, (enc32 c.im).extractLsb' 8 8,
      (enc32 c.im).extractLsb' 16 8, (enc32 c.im).extractLsb' 24 8] := rfl

/-- R147: no pattern is canonicalised on its way out, be it that of a negative zero or of no number. -/
theorem serSample_dec32 (i q : Word) : serSample ⟨dec32 i, dec32 q⟩ = le32 i ++ le32 q := by
  rw [serSample, enc32_dec32, enc32_dec32]

/-- Settles O39: the bytes of every sample, then those of the two patterns of (-1.0, -0.0). -/
theorem sampleBytesAreLittleEndianInPhaseFirst : Obligations.SampleBytesAreLittleEndianInPhaseFirst := by
  refine ⟨serSample_eq_bytes, ?_⟩
  rw [serSample_dec32]
  decide

end Sys2Proof.Machine
end

section
/-! The statements about 30_encoding.md: decoder and encoder are inverse to each other (R71 to R74, R79, R85), the rows
of the operation table by mask and match (R72, R78), ignored bits (R80), the weight of a bit in a sequence (R76), and
the phase columns of the operation table (R78). -/

namespace Sys2Proof

/-! ### The decoder on packed fields (30_encoding.md R72) -/

@[simp] theorem decode_packReg_read (n : BitVec 4) (d : Word) : decode (.reg (packReg 0#1 n d)) = .rdreg n d := by
  simp [decode]

@[simp] theorem decode_packReg_write (n : BitVec 4) (d : Word) :
    decode (.reg (packReg 1#1 n d)) = decodeWrite n d := by
  simp [decode]

/-! ### Commands (30_encoding.md R73, R74, R79) -/

@[simp] theorem isCommandCode_eq_false_iff {d : Word} :
    isCommandCode d = false ↔ d ≠ 1#32 ∧ d ≠ 2#32 ∧ d ≠ 3#32 ∧ d ≠ 4#32 := by
  simp [isCommandCode, and_assoc]

theorem decodeCommand_eq_cmdUndef {d : Word} (h : isCommandCode d = false) : decodeCommand d = .cmdUndef d := by
  obtain ⟨h1, h2, h3, h4⟩ := isCommandCode_eq_false_iff.mp h
  rw [decodeCommand, if_neg h1, if_neg h2, if_neg h3, if_neg h4]

theorem decodeCommand_cases (d : Word) :
    (d = 1#32 ∧ decodeCommand d = .bcon) ∨ (d = 2#32 ∧ decodeCommand d = .btab) ∨
      (d = 3#32 ∧ decodeCommand d = .openSession) ∨ (d = 4#32 ∧ decodeCommand d = .eoi) ∨
      (isCommandCode d = false ∧ decodeCommand d = .cmdUndef d) := by
  by_cases h1 : d = 1#32
  · exact .inl ⟨h1, h1 ▸ rfl⟩
  by_cases h2 : d = 2#32
  · exact .inr (.inl ⟨h2, h2 ▸ rfl⟩)
  by_cases h3 : d = 3#32
  · exact .inr (.inr (.inl ⟨h3, h3 ▸ rfl⟩))
  by_cases h4 : d = 4#32
  · exact .inr (.inr (.inr (.inl ⟨h4, h4 ▸ rfl⟩)))
  have h : isCommandCode d = false := isCommandCode_eq_false_iff.mpr ⟨h1, h2, h3, h4⟩
  exact .inr (.inr (.inr (.inr ⟨h, decodeCommand_eq_cmdUndef h⟩)))

/-! ### Encode, then decode -/

theorem encode_eq_none_iff {i : Instr} : encode i = none ↔ ∃ idx, i = .emit idx := by
  constructor
  · intro h
    cases i with
    | emit idx => exact ⟨idx, rfl⟩
    | _ => cases h
  · rintro ⟨idx, rfl⟩
    rfl

/-- A CMD.UNDEF comes back because its data is no command code; every other write because its register number alone
selects it, or its data is the command's code. -/
theorem decode_encode {i : Instr} {p : Packet} (hi : i.wellFormed = true) (h : encode i = some p) : decode p = i := by
  cases i with
  | emit idx => cases h
  | rdreg n d =>
    cases h
    exact decode_packReg_read n d
  | cmdUndef d =>
    cases h
    have hd : isCommandCode d = false := by simpa [Instr.wellFormed] using hi
    exact (decode_packReg_write _ d).trans (decodeCommand_eq_cmdUndef hd)
  | push b | reset =>
    cases h
    rfl
  | _ =>
    cases h
    exact decode_packReg_write _ _

theorem decodeBytes_bytesOfPacket (p : Packet) : decodeBytes (bytesOfPacket p) = .ok (decode p) := by
  rw [decodeBytes, packetOfBytes_bytesOfPacket]

/-- Settles O1: `decode_encode`, and the framing in bytes loses nothing. -/
theorem encodeThenDecodeGivesTheOperation : Obligations.EncodeThenDecodeGivesTheOperation := by
  refine fun i hi => ⟨fun p h => ?_, encode_eq_none_iff⟩
  have hp : decode p = i := decode_encode hi h
  exact ⟨hp, hp ▸ decodeBytes_bytesOfPacket p⟩

/-! ### Decode, then encode -/

/-- `i` is an operation, and `p` is its packet. -/
def IsPacketOf (p : Packet) (i : Instr) : Prop := i.wellFormed = true ∧ encode i = some p

theorem isPacketOf_decodeCommand (d : Word) : IsPacketOf (.reg (packReg 1#1 0#4 d)) (decodeCommand d) := by
  rcases decodeCommand_cases d with ⟨rfl, e⟩ | ⟨rfl, e⟩ | ⟨rfl, e⟩ | ⟨rfl, e⟩ | ⟨h, e⟩ <;> rw [e]
  case inr.inr.inr.inr => exact ⟨by simpa [Instr.wellFormed] using h, rfl⟩
  all_goals exact ⟨rfl, rfl⟩

/-- Of the sixteen registers only CMD tells its writes apart by their data. -/
theorem isPacketOf_decodeWrite (n : BitVec 4) (d : Word) : IsPacketOf (.reg (packReg 1#1 n d)) (decodeWrite n d) := by
  obtain ⟨k⟩ := n
  fin_cases k
  · exact isPacketOf_decodeCommand d
  all_goals exact ⟨rfl, rfl⟩

theorem isPacketOf_decode (p : Packet) : IsPacketOf p (decode p) := by
  cases p with
  | in8 b | reset => exact ⟨rfl, rfl⟩
  | reg w =>
    rw [← packReg_fields w]
    rcases BitVec.eq_zero_or_eq_one (fieldW w) with hw | hw <;> rw [hw]
    · rw [decode_packReg_read]
      exact ⟨rfl, rfl⟩
    · rw [decode_packReg_write]
      exact isPacketOf_decodeWrite _ _

/-- Settles O2: a REG access is its three fields, and the decoder reads nothing else of it. -/
theorem decodeThenEncodeGivesThePacket : Obligations.DecodeThenEncodeGivesThePacket :=
  fun p => isPacketOf_decode p

/-! ### The rows of the operation table (30_encoding.md R72, R78) -/

theorem fieldW_and (x y : BitVec 37) : fieldW (x &&& y) = fieldW x &&& fieldW y := BitVec.extractLsb'_and

theorem fieldN_and (x y : BitVec 37) : fieldN (x &&& y) = fieldN x &&& fieldN y := BitVec.extractLsb'_and

/-- The row of RDREG: the mask keeps bit 36. -/
theorem decode_of_readMask {w : BitVec 37} (h : w &&& 0x1000000000#37 = 0#37) :
    decode (.reg w) = .rdreg (fieldN w) (fieldD w) := by
  have hw : fieldW w = 0#1 :=
    calc fieldW w = fieldW w &&& fieldW 0x1000000000#37 := BitVec.and_allOnes.symm
      _ = fieldW (w &&& 0x1000000000#37) := (fieldW_and ..).symm
      _ = 0#1 := by rw [h]; rfl
  exact if_pos hw

/-- The mask of the other rows keeps bit 36 and the register number. -/
theorem eq_packReg_of_writeMask {w m : BitVec 37} {n : BitVec 4} (h : w &&& 0x1F00000000#37 = m)
    (hm : fieldW m = 1#1) (hn : fieldN m = n) : w = packReg 1#1 n (fieldD w) := by
  have hw : fieldW w = 1#1 := by rw [← hm, ← h, fieldW_and]; exact BitVec.and_allOnes.symm
  have hr : fieldN w = n := by rw [← hn, ← h, fieldN_and]; exact BitVec.and_allOnes.symm
  rw [← hw, ← hr, packReg_fields]

theorem decode_of_writeMask {w m : BitVec 37} (h : w &&& 0x1F00000000#37 = m) (hm : fieldW m = 1#1) :
    decode (.reg w) = decodeWrite (fieldN m) (fieldD w) := by
  rw [← decode_packReg_write, ← eq_packReg_of_writeMask h hm rfl]

/-- The row of CMD.UNDEF: among the writes to CMD the four command words are those with a command code. -/
theorem decode_of_undefMask {w : BitVec 37} (h : w &&& 0x1F00000000#37 = 0x1000000000#37)
    (h1 : w ≠ 0x1000000001#37) (h2 : w ≠ 0x1000000002#37)
    (h3 : w ≠ 0x1000000003#37) (h4 : w ≠ 0x1000000004#37) :
    decode (.reg w) = .cmdUndef (fieldD w) := by
  have hw : w = packReg 1#1 0#4 (fieldD w) := eq_packReg_of_writeMask h rfl rfl
  have hd : ∀ c, w ≠ packReg 1#1 0#4 c → fieldD w ≠ c := fun c hc e => hc (e ▸ hw)
  have hcode : isCommandCode (fieldD w) = false :=
    isCommandCode_eq_false_iff.mpr ⟨hd 1#32 h1, hd 2#32 h2, hd 3#32 h3, hd 4#32 h4⟩
  exact (decode_of_writeMask h rfl).trans (decodeCommand_eq_cmdUndef hcode)

/-- Settles O3: one lemma per mask; the command words are constants, and a write's register number selects its row. -/
theorem operationTableRowsDecode : Obligations.OperationTableRowsDecode := by
  intro w
  refine ⟨decode_of_readMask, ?bcon, ?btab, ?openSession, ?eoi, decode_of_undefMask,
    ?_, ?_, ?_, ?_, ?_, ?_, ?_, ?_, ?_, ?_, ?_, ?_, ?_, ?_, ?_⟩
  case bcon | btab | openSession | eoi =>
    rintro rfl
    rfl
  all_goals exact fun h => decode_of_writeMask h rfl

/-! ### Words written out (30_encoding.md R71 to R74) -/

/-- Settles O4: closed words, run through the framing and the decoder. -/
theorem writtenOutWordsDecode : Obligations.WrittenOutWordsDecode :=
  ⟨by decide, by decide, by decide, by decide, by decide, by decide, by decide, by decide, by decide, by decide⟩

end Sys2Proof

namespace Sys2Proof.Machine

/-! ### Bits that play no part (30_encoding.md R77, R80; 43_bit_accumulator.md R127) -/

theorem dataBit_congr {b c : Byte} (h : b.getLsbD 0 = c.getLsbD 0) : dataBit b = dataBit c := by
  apply BitVec.eq_of_getLsbD_eq
  intro i hi
  obtain rfl : i = 0 := by omega
  simpa [dataBit] using h

theorem execPush_congr {b c : Byte} (h : dataBit b = dataBit c) (s : State) : execPush b s = execPush c s := by
  rw [execPush, execPush, h]

/-- Settles O5: PUSH looks at its byte through `dataBit`, and RDREG is not given its data. -/
theorem ignoredBitsPlayNoPart : Obligations.IgnoredBitsPlayNoPart :=
  fun s => ⟨fun _ _ h => execPush_congr (dataBit_congr h) s, fun _ _ _ => rfl⟩

/-! ### The phases of the operation table (30_encoding.md R78; 60_exceptions.md R182) -/

theorem writeConfig_fault {put : State → State} {s : State} (h : s.phase = .fault) : writeConfig put s = .next s :=
  inPhase_fault h

theorem illegalWrite_fault {n d : Word} {s : State} (h : s.phase = .fault) : illegalWrite n d s = .next s :=
  if_pos ((faulted_iff s).mpr h)

/-- Apart from RDREG and RESET, an operation has a phase check, writes the configuration or is illegal, and each of the
three tests for P_FAULT first. -/
theorem exec_fault {i : Instr} {s : State} (h : s.phase = .fault) (hread : ∀ n d, i ≠ .rdreg n d)
    (hreset : i ≠ .reset) : exec i s = .next s := by
  unfold exec
  cases i with
  | rdreg n d => exact absurd rfl (hread n d)
  | reset => exact absurd rfl hreset
  | bcon | btab | openSession | eoi | push _ | emit _ => exact inPhase_fault h
  | wrregCfgM _ | wrregCfgFs _ | wrregCfgBaud _ | wrregCfgFc _ | wrregCfgAngle _ | wrregTblRows _
  | wrregTblCols _ => exact writeConfig_fault h
  | cmdUndef _ | illegalStatus _ | illegalErrExpect _ | illegalErrActual _ | illegalNsym _ | illegalSps _
  | illegalRxbit _ | illegalBitsacc _ | illegalReserved15 _ => exact illegalWrite_fault h

/-- Settles O11: RDREG and RESET look at no phase, and `exec_fault` is about the others. -/
theorem nothingRunsAfterAFaultButReadsAndReset : Obligations.NothingRunsAfterAFaultButReadsAndReset := by
  intro i s h
  cases i with
  | rdreg n d | reset => rfl
  | _ => exact exec_fault h (by simp) (by simp)

/-- Settles O14: EMIT needs P_RUN, whose code is 3. -/
theorem emitOutsideASessionRaisesSequenceFault : Obligations.EmitOutsideASessionRaisesSequenceFault := by
  intro s idx hf hr
  unfold exec
  exact inPhase_wrong (want := .run) hf (by simpa using hr)

/-- An operation that goes on and not to P_FAULT has done its work. -/
theorem effect_of_exec {i : Instr} {s t : State} (h : exec i s = .next t) (ht : t.phase ≠ .fault) : Effect i s t := by
  rcases exec_next h with ⟨hf, rfl⟩ | ⟨_, _, _, _, _, rfl⟩ | he
  · exact absurd hf ht
  · exact absurd (raise_phase ..) ht
  · exact he

/-- Settles O51: the phases are those of the operation's effect; of the effects only those of OPEN, PUSH and EMIT have
a second outcome, P_FAULT. -/
theorem operationsLeaveThePhaseOfTheTable : Obligations.OperationsLeaveThePhaseOfTheTable := by
  intro i s t h ht
  have he : Effect i s t := effect_of_exec h ht
  cases i with
  | rdreg n d | reset =>
    obtain rfl := he
    rfl
  | bcon =>
    obtain ⟨hp, _, _, _, rfl⟩ := he
    exact ⟨hp, rfl⟩
  | btab =>
    obtain ⟨hp, _, _, _, _, _, he⟩ := he
    obtain ⟨_, _, rfl⟩ := fillTables_frame he
    exact ⟨hp, rfl⟩
  | openSession =>
    obtain ⟨hp, rfl⟩ := he
    rcases beginSession_cases s with ⟨hrun, _⟩ | hf
    · exact ⟨hp, hrun⟩
    · exact absurd hf ht
  | eoi =>
    obtain ⟨hp, rfl⟩ := he
    exact ⟨hp, rfl⟩
  | push b =>
    obtain ⟨hp, he⟩ := he
    obtain ⟨hphase, _⟩ := pushBit_frame he
    exact ⟨hp, (hphase.resolve_right ht).trans hp⟩
  | emit x =>
    obtain ⟨hp, he⟩ := he
    obtain ⟨hphase, _⟩ := emitSymbol_frame he
    exact ⟨hp, (hphase.resolve_right ht).trans hp⟩
  | wrregCfgM d | wrregCfgFs d | wrregCfgBaud d | wrregCfgFc d | wrregCfgAngle d | wrregTblRows d | wrregTblCols d =>
    obtain ⟨hp, rfl⟩ := he
    exact ⟨hp, hp⟩
  | cmdUndef d | illegalStatus d | illegalErrExpect d | illegalErrActual d | illegalNsym d | illegalSps d
  | illegalRxbit d | illegalBitsacc d | illegalReserved15 d => exact he

end Sys2Proof.Machine

namespace Sys2Proof.Safety

/-! ### The weight of a bit (30_encoding.md R76; 43_bit_accumulator.md R130) -/

/-- What bit `j` of a sequence is worth. -/
def bitWeight (bits : List (BitVec 1)) (j : Nat) : Nat := (bits.getD j 0).toNat * 2 ^ (bits.length - 1 - j)

/-- One more bit doubles what the bits before it are worth. -/
theorem bitWeight_append {l : List (BitVec 1)} {j : Nat} (b : BitVec 1) (hj : j < l.length) :
    bitWeight (l ++ [b]) j = 2 * bitWeight l j := by
  have hpow : 2 ^ ((l ++ [b]).length - 1 - j) = 2 * 2 ^ (l.length - 1 - j) := by
    rw [← Nat.pow_succ', List.length_append, List.length_singleton]
    congr 1
    omega
  rw [bitWeight, bitWeight, List.getD_append _ _ _ _ hj, hpow, Nat.mul_left_comm]

theorem bitWeight_last (l : List (BitVec 1)) (b : BitVec 1) : bitWeight (l ++ [b]) l.length = b.toNat := by
  simp [bitWeight]

/-- Settles O37, by induction on the bits from the last: one more bit doubles the value and adds itself
(`bitsValue_append`), and so it does with the sum of the weights. -/
theorem firstBitIsTheMostSignificant : Obligations.FirstBitIsTheMostSignificant := by
  intro bits
  change bitsValue bits = ((List.range bits.length).map (bitWeight bits)).sum
  induction bits using List.reverseRecOn with
  | nil => rfl
  | append_singleton l b ih =>
    have hfront : (List.range l.length).map (bitWeight (l ++ [b])) =
        (List.range l.length).map (fun j => 2 * bitWeight l j) :=
      List.map_congr_left fun j hj => bitWeight_append b (List.mem_range.mp hj)
    rw [bitsValue_append, ih, List.length_append, List.length_singleton, List.range_succ, List.map_append,
      List.sum_append, hfront, List.sum_map_mul_left, List.map_singleton, List.sum_singleton, bitWeight_last]

end Sys2Proof.Safety
end

section
/-! The statements about 40_register_access.md: a write of a configuration register in P_IDLE (R90, R93). -/

namespace Sys2Proof.Machine

theorem writeConfig_idle {put : State → State} {s : State} (h : s.phase = .idle) :
    writeConfig put s = .next (put s) :=
  inPhase_needed (by simp [h]) (by simp [h])

/-- Settles O18: each of the seven writes is `writeConfig` with the update of its own register. -/
theorem configWriteStoresTheData : Obligations.ConfigWriteStoresTheData := by
  intro s d h
  unfold exec
  exact ⟨writeConfig_idle h, writeConfig_idle h, writeConfig_idle h, writeConfig_idle h, writeConfig_idle h,
    writeConfig_idle h, writeConfig_idle h⟩

end Sys2Proof.Machine
end

section
/-! The statements about 41_constellation.md: what BCON writes and leaves alone (R101, R103), the worked constellations
(R105, R106), and the spacing of neighbours (R104). -/

namespace Sys2Proof.Machine

/-! ### BCON (41_constellation.md R101) -/

theorem exec_bcon_of_idle {s : State} (h : s.phase = .idle) :
    exec .bcon s = .next (buildConstellation Config.num s) := by
  unfold exec execBcon
  exact inPhase_needed (by simp [h]) (by simp [h])

/-- The work of BCON with a configuration that R102 accepts. -/
theorem buildConstellation_of_legal (num : Sys2Proof.Num) {s : State} (h1 : 1 ≤ s.cfgM.toNat)
    (hmax : s.cfgM.toNat ≤ Config.mMax) (hangle : isFinite (dec32 s.cfgAngle) = true) :
    buildConstellation num s =
      { s with
        const := s.const.writeList 0 (constellation num (dec32 s.cfgAngle) s.cfgM.toNat)
        nsym := BitVec.ofNat 32 (2 ^ s.cfgM.toNat)
        phase := .const } := by
  rcases buildConstellation_cases num s with ⟨hbad, _⟩ | ⟨_, _, hbad, _⟩ | ⟨_, _, _, e⟩
  · omega
  · simp [hangle] at hbad
  · exact e

/-- CONST after a constellation of a legal M has been written from its first entry up: the symbols, and above them what
was there before. -/
theorem constAt_of_constellation_written {s t : State} {num : Sys2Proof.Num} {a0 : F32} {m : Nat}
    (hm : m ≤ Config.mMax) (ht : t.const = s.const.writeList 0 (constellation num a0 m)) (k : Nat) :
    constAt t k = if k < 2 ^ m then some ⟨one32, num.angle a0 k m⟩ else constAt s k := by
  have hsize : 2 ^ m ≤ constSize := two_pow_le_constSize hm
  rw [constAt_eq, constAt_eq, ht, read_writeList, constellation_length]
  by_cases hk : k < 2 ^ m
  · rw [if_pos (by omega), if_pos (by omega), if_pos hk]
    exact constellation_getElem? num a0 hk
  · rw [if_neg (by omega : ¬ (0 ≤ k ∧ k < 0 + 2 ^ m)), if_neg hk]

/-- Settles O19: a legal configuration takes BCON to its third outcome, whose memory `constAt_of_constellation_written`
reads. -/
theorem bconBuildsTheConstellation : Obligations.BconBuildsTheConstellation := by
  intro s hidle h1 hmax hangle
  have hbuild := buildConstellation_of_legal Config.num h1 hmax hangle
  refine ⟨_, (exec_bcon_of_idle hidle).trans (congrArg _ hbuild), rfl, Config.toNat_ofNat_two_pow hmax,
    enc32_dec32 _, fun k hk => ?_, fun k hk => ?_⟩
  · rw [constAt_of_constellation_written (s := s) hmax rfl, if_pos hk]
  · rw [constAt_of_constellation_written (s := s) hmax rfl, if_neg (by omega)]

/-! ### Exact angles (00_scope.md R12 (c)) -/

/-- Under property (c) an angle whose ideal is the value of a finite float has that value. -/
theorem HasExactSpacing.floatValue_angle {n : Sys2Proof.Num} (hn : HasExactSpacing n) {a0 f : F32} {k m : Nat}
    (h0 : isFinite a0 = true) (hf : isFinite f = true) (hv : floatValue f = idealAngle a0 k m) :
    floatValue (n.angle a0 k m) = idealAngle a0 k m := by
  obtain ⟨g, hg⟩ := exists_isFloatOf hf
  rw [hv] at hg
  rw [hn a0 k m g h0 hg]
  obtain ⟨_, hgv, _⟩ := hg
  exact hgv

theorem idealAngle_succ_sub (a0 : F32) (k m : Nat) :
    idealAngle a0 (k + 1) m - idealAngle a0 k m = 360 / 2 ^ m := by
  unfold idealAngle
  push_cast
  ring

theorem mag_of_mem_constellation {n : Sys2Proof.Num} {a0 : F32} {m : Nat} {c : Symbol}
    (h : c ∈ constellation n a0 m) : c.mag = one32 := by
  obtain ⟨k, _, rfl⟩ := List.mem_map.mp h
  rfl

/-- Settles O22: both angles have their ideal values, which are one step apart. -/
theorem neighbouringSymbolsAreExactlySpaced : Obligations.NeighbouringSymbolsAreExactlySpaced := by
  intro n a0 m hn h0
  refine ⟨constellation_length n a0 m, fun c hc => ?_, fun k f g hk hf hg hfv hgv => ?_⟩
  · rw [mag_of_mem_constellation hc, floatValue_one32]
  · refine ⟨_, _, constellation_getElem? n a0 (by omega), constellation_getElem? n a0 hk, ?_⟩
    rw [hn.floatValue_angle h0 hf hfv, hn.floatValue_angle h0 hg hgv, idealAngle_succ_sub]

/-! ### The worked constellations (41_constellation.md R105, R106) -/

/-- `p` is the pattern and the value of the ideal angle of symbol `k`, which is the value of a float. -/
def IsExactAngle (a0 : F32) (m k : Nat) (p : Word × ℚ) : Prop := idealAngle a0 k m = p.2 ∧ IsFloatOf p.2 (dec32 p.1)

/-- `ps` lists the exact angles of a constellation, symbol by symbol. -/
def AreExactAngles (a0 : F32) (m : Nat) (ps : List (Word × ℚ)) : Prop :=
  List.Forall₂ (IsExactAngle a0 m) (List.range (2 ^ m)) ps

/-- Under property (c) an exact angle is the stored one, as pattern and as value. -/
theorem HasExactSpacing.angle_eq {n : Sys2Proof.Num} (hn : HasExactSpacing n) {a0 : F32} {m k : Nat} {p : Word × ℚ}
    (h0 : isFinite a0 = true) (hp : IsExactAngle a0 m k p) :
    (enc32 (n.angle a0 k m), floatValue (n.angle a0 k m)) = p := by
  obtain ⟨hideal, hfloat⟩ := hp
  have hangle : n.angle a0 k m = dec32 p.1 := hn a0 k m _ h0 (hideal ▸ hfloat)
  obtain ⟨_, hvalue, _⟩ := hfloat
  rw [hangle, enc32_dec32, hvalue]

theorem HasExactSpacing.map_constellation {n : Sys2Proof.Num} (hn : HasExactSpacing n) {a0 : F32} {m : Nat}
    {ps : List (Word × ℚ)} (h0 : isFinite a0 = true) (hps : AreExactAngles a0 m ps) :
    (constellation n a0 m).map (fun c => (enc32 c.ang, floatValue c.ang)) = ps := by
  rw [constellation, List.map_map, ← List.forall₂_eq_eq_eq, List.forall₂_map_left_iff]
  exact hps.imp fun _ _ hp => hn.angle_eq h0 hp

/-- A normal float times a power of two is the value of a float, as long as the exponent field has room. -/
theorem exists_float_mul_two_pow {f : F32} {d : Nat} (h0 : f.exp.toNat ≠ 0) (h : f.exp.toNat + d < 255) :
    ∃ g : F32, isFinite g = true ∧ floatValue g = floatValue f * 2 ^ d := by
  have he : (BitVec.ofNat 8 (f.exp.toNat + d)).toNat = f.exp.toNat + d :=
    (BitVec.toNat_ofNat ..).trans (Nat.mod_eq_of_lt (by omega))
  have hsub : f.exp.toNat + d - 1 = f.exp.toNat - 1 + d := by omega
  refine ⟨{ f with exp := BitVec.ofNat 8 (f.exp.toNat + d) }, ?_, ?_⟩
  · have hne : BitVec.ofNat 8 (f.exp.toNat + d) ≠ 255#8 := fun hc => by
      rw [hc, BitVec.toNat_ofNat] at he
      omega
    simpa [isFinite] using hne
  · simp only [floatValue, significand, scaleExp, he, hsub, if_neg h0, if_neg (by omega : ¬ f.exp.toNat + d = 0),
      pow_add]
    push_cast
    ring

/-- Every multiple of 1/8 above 0 and below 2^21 is the value of a float: a grid float times 2^21. -/
theorem exists_float_eighths {n : Nat} (h0 : n ≠ 0) (h : n < 2 ^ 24) :
    ∃ f : F32, isFinite f = true ∧ floatValue f = n / 8 := by
  have hlog : n.log2 < 24 := (Nat.log2_lt h0).mpr h
  have hexp : (gridFloat 0#1 n).exp.toNat = n.log2 + 103 :=
    (BitVec.toNat_ofNat ..).trans (Nat.mod_eq_of_lt (by omega))
  obtain ⟨f, hf, hv⟩ := exists_float_mul_two_pow (f := gridFloat 0#1 n) (d := 21) (by omega) (by omega)
  obtain ⟨_, hgrid⟩ := gridFloat_spec 0#1 h0 h
  refine ⟨f, hf, ?_⟩
  rw [hv, hgrid, if_neg (by decide)]
  ring

theorem floatValue_dec32_45 : floatValue (dec32 0x42340000#32) = 45 := by decide +kernel

/-- Vector B6: the angles are multiples of 1/8, and so are exact. -/
theorem HasExactSpacing.floatValue_angle_B6 {n : Sys2Proof.Num} (hn : HasExactSpacing n) {k : Nat} (hk : k < 2 ^ 6) :
    floatValue (n.angle (dec32 0x42340000#32) k 6) = 45 + 5.625 * k := by
  have hideal : idealAngle (dec32 0x42340000#32) k 6 = ((360 + 45 * k : ℕ) : ℚ) / 8 := by
    rw [idealAngle, floatValue_dec32_45]
    push_cast
    ring
  obtain ⟨f, hf, hv⟩ := exists_float_eighths (n := 360 + 45 * k) (by omega) (by omega)
  rw [hn.floatValue_angle (by decide) hf (hv.trans hideal.symm), idealAngle, floatValue_dec32_45]
  ring

/-- Settles O21: the printed angles are exact, which evaluating the ideal angles and the patterns shows; those of B6 are
exact by `HasExactSpacing.floatValue_angle_B6`. -/
theorem workedConstellationsHaveTheirAngles : Obligations.WorkedConstellationsHaveTheirAngles := by
  intro n hn
  have h45 : isFinite (dec32 0x42340000#32) = true := by decide
  have hzero : isFinite (dec32 0x00000000#32) = true := by decide
  refine ⟨hn.map_constellation h45 ?_, hn.map_constellation hzero ?_, hn.map_constellation h45 ?_,
    hn.map_constellation hzero ?_, hn.map_constellation (by decide) ?_, hn.map_constellation (by decide) ?_,
    hn.map_constellation (by decide) ?_, hn.map_constellation hzero ?_, ?valuesB6, ?lastB6⟩
  case valuesB6 =>
    rw [constellation, List.map_map]
    exact List.map_congr_left fun k hk => hn.floatValue_angle_B6 (List.mem_range.mp hk)
  case lastB6 =>
    have hlast : IsExactAngle (dec32 0x42340000#32) 6 63 (0x43C7B000#32, 399.375) := by
      unfold IsExactAngle IsFloatOf
      decide +kernel
    rw [constellation_getElem? n _ (by decide)]
    exact congrArg some (hn.angle_eq h45 hlast)
  all_goals
    unfold AreExactAngles IsExactAngle IsFloatOf
    decide +kernel

end Sys2Proof.Machine
end

section
/-! The statements about 42_waveform_table.md: what BTAB writes and leaves alone (R111, R112, R114, R116, R117), and the
product of `Num_ref` (R116). -/

namespace Sys2Proof.Machine

/-! ### The product of Num_ref (42_waveform_table.md R116) -/

/-- On finite pairs the two ideal products are one number, which one function rounds. -/
theorem RoundsWith.cmul_comm {round : ℝ → F32} {n : Sys2Proof.Num} (hn : RoundsWith round n) (a b : C32) :
    n.cmul a b = n.cmul b a := by
  cases hfin : isFinitePair a && isFinitePair b with
  | false => exact hn.cmulNotFinite a b hfin
  | true =>
    obtain ⟨ha, hb⟩ := Bool.and_eq_true_iff.mp hfin
    have hre : floatValue a.re * floatValue b.re - floatValue a.im * floatValue b.im =
        floatValue b.re * floatValue a.re - floatValue b.im * floatValue a.im := by ring
    have him : floatValue a.re * floatValue b.im + floatValue a.im * floatValue b.re =
        floatValue b.re * floatValue a.im + floatValue b.im * floatValue a.re := by ring
    rw [hn.cmul a b ha hb, hn.cmul b a hb ha, hre, him]

/-- Settles O27 by `RoundsWith.cmul_comm`. -/
theorem referenceProductIsCommutative : Obligations.ReferenceProductIsCommutative := by
  rintro n ⟨round, _, hn⟩ a b
  exact hn.cmul_comm a b

/-! ### BTAB (42_waveform_table.md R111) -/

theorem exec_btab_of_const {s : State} (h : s.phase = .const) :
    exec .btab s = finish (buildTables Config.num s) := by
  unfold exec execBtab
  exact inPhase_needed (by simp [h]) (by simp [h])

/-- The work of BTAB with a configuration that R113 accepts. -/
theorem buildTables_of_legal (num : Sys2Proof.Num) {s : State} {n : Nat} (hfs : s.cfgFs ≠ 0#32)
    (hbaud : s.cfgBaud ≠ 0#32) (hn : n = ceilDiv s.cfgFs.toNat s.cfgBaud.toNat) (hmax : n ≤ Config.spsMax)
    (hrows : s.tblRows = s.nsym) (hcols : s.tblCols.toNat = n) : buildTables num s = fillTables num n s := by
  subst hn
  rcases buildTables_cases num s with
    ⟨hbad, _⟩ | ⟨_, hbad, _⟩ | ⟨_, _, hbad, _⟩ | ⟨_, _, _, hbad, _⟩ | ⟨_, _, _, _, hbad, _⟩ | ⟨_, _, _, _, _, e⟩
  · exact absurd hbad hfs
  · exact absurd hbad hbaud
  · omega
  · exact absurd hrows hbad
  · exact absurd hcols hbad
  · exact e

/-- TMPL after a carrier of a legal length has been written from its first entry up: the samples, and above them what
was there before. -/
theorem tmplAt_of_carrier_written {s t : State} {num : Sys2Proof.Num} {fc fs : Word} {n : Nat}
    (hmax : n ≤ Config.spsMax) (ht : t.tmpl = s.tmpl.writeList 0 (carrier num fc fs n)) (i : Nat) :
    tmplAt t i = if i < n then some (carrierSample num fc fs i) else tmplAt s i := by
  have hsize : n ≤ tmplSize := hmax
  rw [tmplAt_eq, tmplAt_eq, ht, read_writeList, carrier_length]
  by_cases hi : i < n
  · rw [if_pos (by omega), if_pos (by omega), if_pos hi]
    exact carrier_getElem? num fc fs hi
  · rw [if_neg (by omega : ¬ (0 ≤ i ∧ i < 0 + n)), if_neg hi]

/-- TBL after its first `k` rows have had their first `n` entries written: those entries, and elsewhere what was there
before. -/
theorem tblAt_of_rows_written {s t : State} {entry : Nat → Nat → C32} {k n : Nat} (hk : k ≤ constSize)
    (hmax : n ≤ Config.spsMax)
    (ht : ∀ r i, i < Config.spsMax → t.tbl.read (tblAddress r i) =
      if r < k ∧ i < n then some (entry r i) else s.tbl.read (tblAddress r i)) (r i : Nat) :
    tblAt t r i = if r < k ∧ i < n then some (entry r i) else tblAt s r i := by
  rw [tblAt_eq, tblAt_eq]
  by_cases hin : r < k ∧ i < n
  · obtain ⟨hr, hi⟩ := hin
    have hi' : i < Config.spsMax := by omega
    rw [if_pos ⟨hi', tblAddress_lt (by omega) hi'⟩, ht r i hi', if_pos ⟨hr, hi⟩, if_pos ⟨hr, hi⟩]
  · rw [if_neg hin]
    by_cases hi : i < Config.spsMax
    · rw [ht r i hi, if_neg hin]
    · rw [if_neg (fun h => hi h.1), if_neg (fun h => hi h.1)]

/-- NSYM symbols that all have an entry lie in CONST. -/
theorem nsym_le_constSize {s : State} {c : Nat → Symbol}
    (hc : ∀ r, r < s.nsym.toNat → readConst s.const r = .ok (c r)) : s.nsym.toNat ≤ constSize := by
  by_contra hlt
  have hlast := (readConst_eq_ok.mp (hc constSize (by omega))).1
  omega

/-- Settles O30: a legal configuration takes BTAB to `fillTables`, whose two memories `tmplAt_of_carrier_written` and
`tblAt_of_rows_written` read. -/
theorem btabBuildsTemplateAndTable : Obligations.BtabBuildsTemplateAndTable := by
  intro s n c hconst hfs hbaud hn hmax hrows hcols hsymbols
  have hread : ∀ r, r < s.nsym.toNat → readConst s.const r = .ok (c r) := fun r hr =>
    toOption_eq_some.mp (hsymbols r hr)
  obtain ⟨tbl, hfill, htbl, _⟩ := fillTables_ok (num := Config.num) hmax hread
  have hexec := (exec_btab_of_const hconst).trans
    (congrArg finish ((buildTables_of_legal Config.num hfs hbaud hn hmax hrows hcols).trans hfill))
  refine ⟨_, hexec, rfl, Config.toNat_ofNat_sps hmax, fun i hi => ?_, fun i hi => ?_, fun r i hr hi => ?_,
    fun r i hout => ?_⟩
  · rw [tmplAt_of_carrier_written (s := s) hmax rfl, if_pos hi, carrierSample]
  · rw [tmplAt_of_carrier_written (s := s) hmax rfl, if_neg (by omega)]
  · rw [tblAt_of_rows_written (s := s) (nsym_le_constSize hread) hmax htbl, if_pos ⟨hr, hi⟩]
    rfl
  · rw [tblAt_of_rows_written (s := s) (nsym_le_constSize hread) hmax htbl, if_neg (by omega)]

end Sys2Proof.Machine
end

section
/-! The statements about 43_bit_accumulator.md: a PUSH that completes no symbol (R126 to R128, R132), one that does
(R126, R129; 44_sample_emitter.md R141), and the accumulator's invariant (R131). -/

namespace Sys2Proof.Machine

/-! ### PUSH in a session (43_bit_accumulator.md R126) -/

theorem exec_push_of_run {b : Byte} {s : State} (h : s.phase = .run) :
    exec (.push b) s = finish (pushBit (dataBit b) s) := by
  unfold exec execPush
  exact inPhase_needed (by simp [h]) (by simp [h])

theorem dataBit_toNat (b : Byte) : (dataBit b).toNat = b.toNat % 2 := by
  simp [dataBit]

/-- The accumulator after one more data bit, as arithmetic (43_bit_accumulator.md R128, R132). -/
theorem shiftIn_dataBit_toNat (b : Byte) (s : State) :
    (s.shiftIn (dataBit b)).rxBit.toNat = (2 * s.rxBit.toNat + b.toNat % 2) % 2 ^ min s.cfgM.toNat Config.mMax := by
  have hwidth : 1 ≤ Config.mMax := by
    have := Config.two_le_mMax
    omega
  rw [shiftIn_rxBit, shiftBit_toNat hwidth, dataBit_toNat]

/-- Settles O34: `pushBit_of_incomplete` gives the whole state, `shiftIn_dataBit_toNat` the value in the accumulator. -/
theorem pushShiftsOneBitIn : Obligations.PushShiftsOneBitIn := by
  intro s b hrun hcount
  have hexec := (exec_push_of_run hrun).trans (congrArg finish (Safety.pushBit_of_incomplete (b := dataBit b) hcount))
  exact ⟨s.shiftIn (dataBit b), hexec, rfl, shiftIn_dataBit_toNat b s⟩

/-! ### The completed symbol (43_bit_accumulator.md R129) -/

/-- Fault entry in a session closes the sink (60_exceptions.md R180). -/
theorem raise_of_run {s : State} (h : s.phase = .run) (c : Cause) (e a : Word) :
    s.raise c e a =
      { s with cause := c, errExpect := e, errActual := a, sinkOpen := false, phase := .fault } := by
  simp [State.raise, h]

/-- Settles O35: the emission is that of the state with the bit shifted in (`Safety.pushBit_of_complete`), and
`emitRow_cases` tells the sink's two answers apart; only the short one raises, so only the other clears. -/
theorem pushEmitsTheCompletedSymbol : Obligations.PushEmitsTheCompletedSymbol := by
  intro s b idx row acc hrun hcount hidx hl hrow hacc
  obtain rfl : idx = (s.shiftIn (dataBit b)).rxBit :=
    BitVec.eq_of_toNat_eq (hidx.trans (shiftIn_dataBit_toNat b s).symm)
  replace hacc : acc = min s.nextAnswer (8 * s.sps.toNat) := hacc
  have hemitted := emitSymbol_ok (s := s.shiftIn (dataBit b)) hl hrow
  rw [exec_push_of_run hrun, Safety.pushBit_of_complete hcount hemitted]
  rcases emitRow_cases (s := s.shiftIn (dataBit b)) (idx := (s.shiftIn (dataBit b)).rxBit) hl with
    ⟨htaken, hemit⟩ | ⟨hshort, hemit⟩ <;> rw [hemit]
  case inl =>
    replace htaken : 8 * s.sps.toNat ≤ s.nextAnswer := htaken
    rw [if_neg (by simp [hrun]), if_pos (by omega)]
    rfl
  case inr =>
    replace hshort : s.nextAnswer < 8 * s.sps.toNat := hshort
    obtain rfl : acc = s.nextAnswer := by omega
    rw [if_pos (raise_phase ..), if_neg (by omega), raise_of_run (by simpa using hrun)]
    rfl

end Sys2Proof.Machine

namespace Sys2Proof.Safety

open Sys2Proof.Machine

/-! ### The invariant of the accumulator (43_bit_accumulator.md R131) -/

theorem Sound.bitsAccum_lt {s : State} (h : Sound s) (hp : s.phase = .run) : s.bitsAccum.toNat < s.cfgM.toNat := by
  obtain ⟨hcount, _⟩ := h.running hp
  rw [hcount]
  exact Nat.mod_lt _ (h.built (by simp [hp])).mPos

/-- The accumulator holds the number of the bits counted, and no more. -/
theorem Sound.rxBit_lt {s : State} (h : Sound s) (hp : s.phase = .run) : s.rxBit.toNat < 2 ^ s.bitsAccum.toNat := by
  obtain ⟨hcount, hvalue⟩ := h.running hp
  rw [hcount, hvalue, ← partialOf_length]
  exact bitsValue_lt _

/-- The mask that never bites. -/
theorem Sound.shiftIn_rxBit_toNat {s : State} (h : Sound s) (hp : s.phase = .run) (b : BitVec 1) :
    (s.shiftIn b).rxBit.toNat = 2 * s.rxBit.toNat + b.toNat := by
  obtain ⟨_, hvalue⟩ := h.running hp
  rw [shiftIn_rxBit, h.shiftBit_rxBit hp, hvalue]

/-- Settles O38 from what `Sound` says of a running session. -/
theorem accumulatorStaysBelowItsCount : Obligations.AccumulatorStaysBelowItsCount := fun _ h hp =>
  ⟨Nat.le_sub_one_of_lt (h.bitsAccum_lt hp), h.rxBit_lt hp, h.shiftIn_rxBit_toNat hp⟩

end Sys2Proof.Safety
end

section
/-! The statements about 44_sample_emitter.md: EMIT appends the row of its index and hands one burst to the sink (R141,
R143 to R145, R152), and the bytes of samples read back (R148, R149). -/

namespace Sys2Proof.Machine

/-! ### EMIT in a session (44_sample_emitter.md R141) -/

theorem exec_emit_of_run {idx : BitVec Config.mMax} {s : State} (h : s.phase = .run) :
    exec (.emit idx) s = finish (emitSymbol idx s) := by
  unfold exec execEmit
  exact inPhase_needed (by simp [h]) (by simp [h])

/-- Settles O36: a row that can be read is emitted (`emitSymbol_ok`), and `emitRow_cases` tells the sink's two answers
apart. -/
theorem emitAppendsTheRowOfTheIndex : Obligations.EmitAppendsTheRowOfTheIndex := by
  intro s idx row acc hrun hl hrow hacc
  replace hacc : acc = min s.nextAnswer (8 * s.sps.toNat) := hacc
  rw [exec_emit_of_run hrun, emitSymbol_ok hl hrow]
  rcases emitRow_cases (s := s) (idx := idx) hl with ⟨htaken, hemit⟩ | ⟨hshort, hemit⟩ <;> rw [hemit]
  case inl =>
    rw [if_pos (by omega)]
    rfl
  case inr =>
    obtain rfl : acc = s.nextAnswer := by omega
    rw [if_neg (by omega), raise_of_run (by simpa using hrun)]
    rfl

/-! ### Reading the bytes back (44_sample_emitter.md R149) -/

/-- A part of a sample holds no sample. -/
theorem deser_of_length_lt {bs : List Byte} (h : bs.length < 8) : deser bs = [] := by
  unfold deser
  split
  · simp only [List.length_cons] at h
    omega
  · rfl

/-- The first eight bytes are one sample: both patterns come back, and with them both floats. -/
theorem deser_serSample_append (c : C32) (bs : List Byte) : deser (serSample c ++ bs) = c :: deser bs := by
  simp only [serSample_eq_bytes, List.cons_append, List.nil_append, deser, wordOfBytes_le32, dec32_enc32]

theorem deser_ser_append (l : List C32) (bs : List Byte) : deser (ser l ++ bs) = l ++ deser bs := by
  induction l with
  | nil => rfl
  | cons c cs ih => rw [ser, List.append_assoc, deser_serSample_append, ih, List.cons_append]

/-- Settles O40: `ser_length` counts the bytes, and after the samples of `l` (`deser_ser_append`) the rest holds none. -/
theorem serialisedSamplesReadBackExactly : Obligations.SerialisedSamplesReadBackExactly := by
  intro l rest hrest
  refine ⟨by rw [ser_length, Nat.mul_comm], ?_⟩
  rw [deser_ser_append, deser_of_length_lt hrest, List.append_nil]

end Sys2Proof.Machine
end

section
/-! The statements about 45_session.md: OPEN and EOI (R156 to R160, R163), what a session has emitted (R165) and what
that depends on (R157, R164), and a session from OPEN to EOI, whatever the sink answers (R161, R165). -/

namespace Sys2Proof.Machine

/-! ### OPEN (45_session.md R156, R157, R160) -/

theorem exec_openSession_of_session {s : State} (h : s.phase = .ready ∨ s.phase = .done) :
    exec .openSession s = .next (beginSession s) := by
  unfold exec execOpenSession
  rcases h with h | h <;> exact inPhase_needed (by simp [h]) (by simp [h])

theorem beginSession_of_opened {s : State} (h : s.nextAnswer ≠ 0) :
    beginSession s = { s.startSession.answered with sink := [], sinkOpen := true, phase := .run } :=
  if_pos (bne_iff_ne.mpr h)

theorem beginSession_of_refused {s : State} (h : s.nextAnswer = 0) :
    beginSession s = s.startSession.answered.raise .ioOpen 0#32 0#32 :=
  if_neg fun ho => bne_iff_ne.mp ho h

/-- Fault entry outside a session leaves the sink as it is (60_exceptions.md R180). -/
theorem raise_of_ne_run {s : State} (h : s.phase ≠ .run) (c : Cause) (e a : Word) :
    s.raise c e a = { s with cause := c, errExpect := e, errActual := a, phase := .fault } := by
  simp [State.raise, h]

/-- Settles O32: OPEN begins a session, and the sink's answer says which way. -/
theorem openStartsASessionOrRecordsTheRefusal : Obligations.OpenStartsASessionOrRecordsTheRefusal := by
  intro s h
  rw [exec_openSession_of_session h]
  split
  case isTrue hopened =>
    rw [beginSession_of_opened hopened]
    rfl
  case isFalse hrefused =>
    have hrun : s.startSession.answered.phase ≠ .run := by rcases h with h | h <;> simp [h]
    rw [beginSession_of_refused (not_not.mp hrefused), raise_of_ne_run hrun]
    rfl

/-! ### EOI (45_session.md R158, R159, R163) -/

theorem exec_eoi_of_run {s : State} (h : s.phase = .run) : exec .eoi s = .next (endSession s) := by
  unfold exec execEoi
  exact inPhase_needed (by simp [h]) (by simp [h])

/-- Settles O33: EOI ends the session, and `endSession` is written out field by field. -/
theorem endOfInputDropsThePartialSymbol : Obligations.EndOfInputDropsThePartialSymbol := fun _ => exec_eoi_of_run

/-! ### What PUSH records, takes and draws (44_sample_emitter.md R143, R145; 45_session.md R161) -/

/-- PUSH records its bit, takes nothing that is offered, and has the sink answer once for a completed symbol, which
ends in P_FAULT where the burst is not taken whole. -/
theorem pushBit_of_run_cases {b : BitVec 1} {s t : State} (hp : s.phase = .run) (h : pushBit b s = .ok t) :
    t.bits = s.bits ++ [b] ∧ t.env.inbox = s.env.inbox ∧
      (((s.bitsAccum + 1).toNat ≠ s.cfgM.toNat ∧ t.phase = .run ∧ t.env.tape = s.env.tape) ∨
        ((s.bitsAccum + 1).toNat = s.cfgM.toNat ∧ t.env.tape = s.env.tape.tail ∧
          (t.phase = .run ∨ t.phase = .fault ∧ s.nextAnswer < 8 * s.sps.toNat))) := by
  rcases pushBit_cases h with ⟨hc, rfl⟩ | ⟨hc, u, hu, rfl⟩
  · exact ⟨rfl, rfl, .inl ⟨hc, hp, rfl⟩⟩
  · obtain ⟨row, hl, _, rfl⟩ := emitSymbol_inv hu
    rcases emitRow_cases (s := s.shiftIn b) (idx := (s.shiftIn b).rxBit) hl with ⟨_, e⟩ | ⟨hshort, e⟩ <;> rw [e]
    · rw [if_neg (by simp [hp])]
      exact ⟨rfl, rfl, .inr ⟨hc, rfl, .inl hp⟩⟩
    · rw [if_pos (raise_phase ..)]
      exact ⟨rfl, rfl, .inr ⟨hc, rfl, .inr ⟨rfl, hshort⟩⟩⟩

/-! ### Only RESET leaves P_FAULT (60_exceptions.md R182) -/

theorem eq_reset_of_decode {p : Packet} (h : decode p = .reset) : p = .reset := by
  obtain ⟨_, henc⟩ := isPacketOf_decode p
  rw [h] at henc
  exact (Option.some.inj henc).symm

theorem step_of_fault {s : State} (hp : s.phase = .fault) (hin : Packet.reset ∉ s.env.inbox) :
    ∃ t, step s = .next t ∧ t.phase = .fault ∧ Packet.reset ∉ t.env.inbox := by
  rcases step_cases s with ⟨_, e⟩ | ⟨p, ps, hps, e⟩
  · exact ⟨s, e, hp, hin⟩
  · rw [hps, List.mem_cons, not_or] at hin
    obtain ⟨hne, hin⟩ := hin
    by_cases hread : ∃ n d, decode p = .rdreg n d
    · obtain ⟨n, d, hd⟩ := hread
      rw [hd] at e
      exact ⟨_, e, hp, hin⟩
    · push Not at hread
      exact ⟨_, e.trans (exec_fault hp hread fun hd => hne (eq_reset_of_decode hd).symm), hp, hin⟩

theorem run_of_fault {s : State} (hp : s.phase = .fault) (hin : Packet.reset ∉ s.env.inbox) (k : Nat) :
    ∃ t, Host.Core.run Sys2Proof.core k s = .next t ∧ t.phase = .fault := by
  obtain ⟨t, ht, hf, _⟩ := core_run_keeps Sys2Proof.core (fun s => s.phase = .fault ∧ Packet.reset ∉ s.env.inbox)
    (fun _ ⟨hf, hi⟩ => step_of_fault hf hi) k s ⟨hp, hin⟩
  exact ⟨t, ht, hf⟩

/-! ### The set-up of a session -/

theorem SameSetup.trans {s t u : State} (h : SameSetup s t) (k : SameSetup t u) : SameSetup s u where
  cfgM := k.cfgM.trans h.cfgM
  cfgFs := k.cfgFs.trans h.cfgFs
  cfgBaud := k.cfgBaud.trans h.cfgBaud
  cfgFc := k.cfgFc.trans h.cfgFc
  cfgAngle := k.cfgAngle.trans h.cfgAngle
  tblRows := k.tblRows.trans h.tblRows
  tblCols := k.tblCols.trans h.tblCols
  nsym := k.nsym.trans h.nsym
  sps := k.sps.trans h.sps
  const := k.const.trans h.const
  tmpl := k.tmpl.trans h.tmpl
  tbl := k.tbl.trans h.tbl

theorem SameSetup.tblAt_eq {s t : State} (h : SameSetup s t) (r i : Nat) : tblAt t r i = tblAt s r i := by
  rw [tblAt, tblAt, h.tbl]

end Sys2Proof.Machine

namespace Sys2Proof.Safety

open Sys2Proof.Machine

/-! ### Groups of bits (43_bit_accumulator.md R130) -/

theorem group_length {m t : Nat} {l : List (BitVec 1)} (ht : t < l.length / m) : (group m l t).length = m := by
  have hend : (t + 1) * m ≤ l.length := (Nat.mul_le_mul_right m ht).trans (Nat.div_mul_le_self ..)
  rw [Nat.add_mul] at hend
  rw [group, List.length_take, List.length_drop]
  omega

theorem group_getD {m t j : Nat} (l : List (BitVec 1)) (hj : j < m) :
    (group m l t).getD j 0 = l.getD (t * m + j) 0 := by
  simp [group, List.getD_eq_getElem?_getD, hj]

/-- The number of a whole group, bit by bit (30_encoding.md R76). -/
theorem bitsValue_group {m t : Nat} {l : List (BitVec 1)} (ht : t < l.length / m) :
    bitsValue (group m l t) = ((List.range m).map fun j => (l.getD (t * m + j) 0).toNat * 2 ^ (m - 1 - j)).sum := by
  rw [firstBitIsTheMostSignificant, group_length ht]
  refine congrArg List.sum (List.map_congr_left fun j hj => ?_)
  rw [group_getD l (List.mem_range.mp hj)]

/-! ### Rows of one length, one after another (44_sample_emitter.md R141) -/

theorem getElem?_flatMap_of_length {α β : Type} {f : α → List β} {n i : Nat} (hf : ∀ a, (f a).length = n) (hi : i < n)
    {a : α} : ∀ {l : List α} {t : Nat}, l[t]? = some a → (l.flatMap f)[t * n + i]? = (f a)[i]?
  | [], _, h => by simp at h
  | b :: l, 0, h => by
    obtain rfl : b = a := by simpa using h
    rw [List.flatMap_cons, List.getElem?_append_left (by rw [hf]; omega), Nat.zero_mul, Nat.zero_add]
  | b :: l, t + 1, h => by
    have hl : l[t]? = some a := by simpa using h
    have hskip : (t + 1) * n + i - n = t * n + i := by rw [Nat.add_mul]; omega
    rw [List.flatMap_cons, List.getElem?_append_right (by rw [hf, Nat.add_mul]; omega), hf, hskip,
      getElem?_flatMap_of_length hf hi hl]

theorem length_flatMap_of_length {α β : Type} {f : α → List β} {n : Nat} (hf : ∀ a, (f a).length = n) (l : List α) :
    (l.flatMap f).length = l.length * n := by
  simp [List.length_flatMap, hf]

/-! ### What a session has emitted (45_session.md R165) -/

theorem SessionOutput.syms_length {s : State} (h : SessionOutput s) :
    s.syms.length = s.bits.length / s.cfgM.toNat := by
  rw [← List.length_map BitVec.toNat, h.syms, symbolsOf, List.length_map, List.length_range]

theorem SessionOutput.exists_sym {s : State} (h : SessionOutput s) {t : Nat} (ht : t < s.bits.length / s.cfgM.toNat) :
    ∃ x, s.syms[t]? = some x ∧ x.toNat = bitsValue (group s.cfgM.toNat s.bits t) := by
  have hsym : (s.syms.map BitVec.toNat)[t]? = some (bitsValue (group s.cfgM.toNat s.bits t)) := by
    rw [h.syms, symbolsOf, List.getElem?_map, List.getElem?_range ht, Option.map_some]
  rwa [List.getElem?_map, Option.map_eq_some_iff] at hsym

/-- OUT is the rows of the symbols in SYMS. -/
theorem SessionOutput.out_eq_rows {s : State} (h : SessionOutput s) :
    s.out = s.syms.flatMap fun x => tableRow s x.toNat := by
  rw [h.out, ← h.syms, List.flatMap_map]

theorem SessionOutput.out_length {s : State} (h : SessionOutput s) :
    s.out.length = s.bits.length / s.cfgM.toNat * s.sps.toNat := by
  rw [h.out_eq_rows, length_flatMap_of_length fun _ => tableRow_length s _, h.syms_length]

theorem SessionOutput.sink_length {s : State} (h : SessionOutput s) :
    s.sink.length = 8 * (s.bits.length / s.cfgM.toNat) * s.sps.toNat := by
  rw [h.sink, ser_length, h.out_length, Nat.mul_comm, Nat.mul_assoc]

theorem TableBuilt.tableRow_getElem? {s : State} (h : TableBuilt s) {r i : Nat} (hr : r < s.nsym.toNat)
    (hi : i < s.sps.toNat) : (tableRow s r)[i]? = tblAt s r i := by
  rw [h.table r i hr hi]
  simp [tableRow, hi]

/-- Settles O45: the session's histories are those of the bits taken in it (`SessionOutput`), of which every whole group
is the number of a row that has been built. -/
theorem endedSessionHoldsItsResult : Obligations.EndedSessionHoldsItsResult := by
  rintro s _ _ h (hdone : s.phase = .done) rfl rfl
  have hout := h.session (.inr hdone)
  have hbuilt := h.built (by simp [hdone])
  have htable := h.table (by simp [hdone])
  obtain ⟨hrx, hacc⟩ := h.cleared (by simp [hdone]) (by simp [hdone])
  refine ⟨h.cause_eq_none (by simp [hdone]), hrx, hacc, hout.syms_length, fun t ht => ?_, hout.out_length, hout.sink,
    hout.sink_length⟩
  obtain ⟨x, hx, hvalue⟩ := hout.exists_sym ht
  have hrow : x.toNat < s.nsym.toNat := by
    have := bitsValue_lt (group s.cfgM.toNat s.bits t)
    rwa [group_length ht, ← hvalue, ← hbuilt.nsym] at this
  refine ⟨x, hx, hvalue.trans (bitsValue_group ht), fun i hi => ?_⟩
  rw [hout.out_eq_rows, getElem?_flatMap_of_length (fun _ => tableRow_length s _) hi hx,
    htable.tableRow_getElem? hrow hi]

/-! ### What that depends on (45_session.md R157, R164) -/

/-- Settles O49: SPS is that of the configuration, so the rows are, and the bits give the symbols. -/
theorem sessionOutputDependsOnlyOnTableAndBits : Obligations.SessionOutputDependsOnlyOnTableAndBits := by
  intro s t hs ht hps hpt hm hfs hbaud hfc hangle hbits
  have outS := hs.session hps
  have outT := ht.session hpt
  have hsyms : s.syms = t.syms :=
    List.map_injective_iff.mpr (fun _ _ => BitVec.eq_of_toNat_eq) (by rw [outS.syms, outT.syms, hm, hbits])
  have hsps : s.sps = t.sps :=
    BitVec.eq_of_toNat_eq (by rw [(hs.table (.inr hps)).sps, (ht.table (.inr hpt)).sps, hfs, hbaud])
  have hout : s.out = t.out := by
    rw [outS.out, outT.out, funext (tableRow_congr hm hangle hfs hfc hsps), hm, hbits]
  exact ⟨hsyms, hout, by rw [outS.sink, outT.sink, hout]⟩

/-! ### The sink in a session (45_session.md R161) -/

/-- The sink's next answers take whole every burst that is still to come before the session has `q` symbols. -/
def TakesBursts (q : Nat) (s : State) : Prop :=
  ∀ j, s.bits.length / s.cfgM.toNat + j < q → ∃ x, s.env.tape[j]? = some x ∧ 8 * s.sps.toNat ≤ x

theorem TakesBursts.le_nextAnswer {q : Nat} {s : State} (h : TakesBursts q s)
    (hq : s.bits.length / s.cfgM.toNat < q) : 8 * s.sps.toNat ≤ s.nextAnswer := by
  obtain ⟨x, hx, hle⟩ := h 0 hq
  rwa [State.nextAnswer, List.headD_eq_head?_getD, List.head?_eq_getElem?, hx]

/-- PUSH in a session of at most `q` symbols: on to the next bit, or a burst that the sink did not take whole. -/
theorem Sound.phase_of_pushBit {q : Nat} {b : BitVec 1} {s t : State} (h : Sound s) (hp : s.phase = .run)
    (ht : pushBit b s = .ok t) (hq : (s.bits.length + 1) / s.cfgM.toNat ≤ q) :
    (t.phase = .fault ∧ ¬ TakesBursts q s) ∨ (t.phase = .run ∧ (TakesBursts q s → TakesBursts q t)) := by
  have hpos := (h.built (by simp [hp])).mPos
  obtain ⟨_, _, setup, _⟩ := pushBit_frame ht
  obtain ⟨hbits, _, ⟨hc, hrun, htape⟩ | ⟨hc, htape, hphase⟩⟩ := pushBit_of_run_cases hp ht
  all_goals
    rw [h.bitsAccum_add_one hp] at hc
    have hlen : t.bits.length = s.bits.length + 1 := by simp [hbits]
  · refine .inr ⟨hrun, fun htakes j hj => ?_⟩
    rw [setup.cfgM, hlen, (div_mod_stay hpos hc).1] at hj
    rw [htape, setup.sps]
    exact htakes j hj
  · have hnext := (div_mod_full hpos hc).1
    rcases hphase with hrun | ⟨hfault, hshort⟩
    · refine .inr ⟨hrun, fun htakes j hj => ?_⟩
      rw [setup.cfgM, hlen, hnext] at hj
      rw [htape, setup.sps, List.getElem?_tail]
      exact htakes (j + 1) (by omega)
    · exact .inl ⟨hfault, fun htakes => absurd (htakes.le_nextAnswer (by omega)) (by omega)⟩

/-- The environment's answers for a session of `q` symbols in which nothing fails, OPEN's first (`SinkOK`). -/
def SinkOK (q : Nat) (s : State) : Prop :=
  ∃ (a : Nat) (bursts rest : List Nat), s.env.tape = a :: (bursts ++ rest) ∧ a ≠ 0 ∧ bursts.length = q ∧
    ∀ x ∈ bursts, 8 * s.sps.toNat ≤ x

theorem SinkOK.nextAnswer_ne_zero {q : Nat} {s : State} (h : SinkOK q s) : s.nextAnswer ≠ 0 := by
  obtain ⟨a, _, _, htape, ha, _⟩ := h
  rwa [State.nextAnswer, htape, List.headD_cons]

/-- After OPEN has taken its answer, those for the bursts are next. -/
theorem SinkOK.takesBursts {q : Nat} {s t : State} (h : SinkOK q s) (htape : t.env.tape = s.env.tape.tail)
    (hsps : t.sps = s.sps) : TakesBursts q t := by
  obtain ⟨_, bursts, rest, hs, _, hlen, hle⟩ := h
  intro j hj
  have hlt : j < bursts.length := hlen ▸ lt_of_le_of_lt (Nat.le_add_left ..) hj
  refine ⟨bursts[j], ?_, hsps ▸ hle _ (List.getElem_mem hlt)⟩
  rw [htape, hs, List.tail_cons, List.getElem?_append_left hlt, List.getElem?_eq_getElem hlt]

/-! ### From OPEN to EOI (45_session.md R165) -/

/-- The offers of a session after its OPEN: the bytes and EOI (30_encoding.md R71, R74). -/
def sessionInputs (ys : List Byte) : List Packet := ys.map Packet.in8 ++ [.reg (packReg 1#1 0#4 4#32)]

theorem reset_notMem_sessionInputs (ys : List Byte) : Packet.reset ∉ sessionInputs ys := by simp [sessionInputs]

theorem step_openSession {s : State} {ps : List Packet} (hp : s.phase = .ready ∨ s.phase = .done)
    (hin : s.env.inbox = .reg (packReg 1#1 0#4 3#32) :: ps) :
    step s = .next (beginSession { s with env := { s.env with inbox := ps } }) := by
  rw [step_of_inbox_cons hin, decode_packReg_write]
  exact exec_openSession_of_session hp

theorem step_push {s : State} {y : Byte} {ps : List Packet} (hp : s.phase = .run)
    (hin : s.env.inbox = .in8 y :: ps) :
    step s = finish (pushBit (dataBit y) { s with env := { s.env with inbox := ps } }) := by
  rw [step_of_inbox_cons hin, decode]
  exact exec_push_of_run hp

theorem step_eoi {s : State} {ps : List Packet} (hp : s.phase = .run)
    (hin : s.env.inbox = .reg (packReg 1#1 0#4 4#32) :: ps) :
    step s = .next (endSession { s with env := { s.env with inbox := ps } }) := by
  rw [step_of_inbox_cons hin, decode_packReg_write]
  exact exec_eoi_of_run hp

/-- `t` is the end of a session on the set-up of `s`, in which the bits `bs` have been taken. -/
structure SessionEnd (s : State) (bs : List (BitVec 1)) (t : State) : Prop where
  setup : SameSetup s t
  phase : t.phase = .done
  bits : t.bits = bs

/-- OPEN before a session of `q` symbols: on to the first byte, or the sink does not open. -/
theorem Sound.exists_step_openSession {q : Nat} {ps : List Packet} {s : State} (h : Sound s)
    (hp : s.phase = .ready ∨ s.phase = .done) (hin : s.env.inbox = .reg (packReg 1#1 0#4 3#32) :: ps) :
    ∃ t, step s = .next t ∧ Sound t ∧ SameSetup s t ∧ t.env.inbox = ps ∧
      ((t.phase = .fault ∧ ¬ SinkOK q s) ∨ (t.phase = .run ∧ t.bits = [] ∧ (SinkOK q s → TakesBursts q t))) := by
  have wait : SameSetup s { s with env := { s.env with inbox := ps } } := by constructor <;> rfl
  refine ⟨_, step_openSession hp hin, (h.withEnv _).beginSession hp, wait.trans (beginSession_frame _), ?_⟩
  rcases eq_or_ne s.nextAnswer 0 with hrefused | hopened
  · rw [beginSession_of_refused (by exact hrefused)]
    exact ⟨rfl, .inl ⟨rfl, fun ok => ok.nextAnswer_ne_zero hrefused⟩⟩
  · rw [beginSession_of_opened (by exact hopened)]
    exact ⟨rfl, .inr ⟨rfl, rfl, fun ok => ok.takesBursts rfl rfl⟩⟩

/-- One byte of a session of at most `q` symbols. -/
theorem Sound.exists_step_push {q : Nat} {y : Byte} {ps : List Packet} {s : State} (h : Sound s) (hp : s.phase = .run)
    (hin : s.env.inbox = .in8 y :: ps) (hq : (s.bits.length + 1) / s.cfgM.toNat ≤ q) :
    ∃ t, step s = .next t ∧ Sound t ∧ SameSetup s t ∧ t.bits = s.bits ++ [dataBit y] ∧ t.env.inbox = ps ∧
      ((t.phase = .fault ∧ ¬ TakesBursts q s) ∨ (t.phase = .run ∧ (TakesBursts q s → TakesBursts q t))) := by
  have h' := h.withEnv { s.env with inbox := ps }
  have wait : SameSetup s { s with env := { s.env with inbox := ps } } := by constructor <;> rfl
  obtain ⟨t, ht, hsound⟩ := h'.exists_pushBit hp (dataBit y)
  obtain ⟨_, _, setup, _⟩ := pushBit_frame ht
  obtain ⟨hbits, hinbox, _⟩ := pushBit_of_run_cases (by exact hp) ht
  exact ⟨t, by rw [step_push hp hin, ht, finish], hsound, wait.trans setup, hbits, hinbox,
    h'.phase_of_pushBit hp ht hq⟩

/-- The rest of a session: it ends with every bit taken, or in a fault, and then the sink did not take every burst
whole. -/
theorem Sound.exists_run_session {q : Nat} (ys : List Byte) {s : State} (h : Sound s) (hp : s.phase = .run)
    (hin : s.env.inbox = sessionInputs ys) (hq : (s.bits.length + ys.length) / s.cfgM.toNat ≤ q) :
    ∃ t, Host.Core.run Sys2Proof.core (ys.length + 1) s = .next t ∧
      ((t.phase = .fault ∧ ¬ TakesBursts q s) ∨ SessionEnd s (s.bits ++ ys.map dataBit) t) := by
  induction ys generalizing s with
  | nil =>
    exact ⟨_, core_run_step Sys2Proof.core 0 (step_eoi hp hin),
      .inr ⟨by constructor <;> rfl, rfl, (List.append_nil _).symm⟩⟩
  | cons y ys ih =>
    rw [List.length_cons] at hq
    have hq' : (s.bits.length + 1) / s.cfgM.toNat ≤ q := (Nat.div_le_div_right (by omega)).trans hq
    obtain ⟨u, hstep, hu, setup, hbits, hinbox, ⟨hf, hshort⟩ | ⟨hr, htakes⟩⟩ := h.exists_step_push hp hin hq'
    · obtain ⟨t, ht, htf⟩ := run_of_fault hf (hinbox ▸ reset_notMem_sessionInputs ys) (ys.length + 1)
      exact ⟨t, (core_run_step Sys2Proof.core _ hstep).trans ht, .inl ⟨htf, hshort⟩⟩
    · have hlen : u.bits.length + ys.length = s.bits.length + (ys.length + 1) := by simp [hbits]; omega
      obtain ⟨t, ht, hend⟩ := ih hu hr hinbox (by rwa [hlen, setup.cfgM])
      refine ⟨t, (core_run_step Sys2Proof.core _ hstep).trans ht, hend.imp (And.imp_right (mt htakes)) fun hend => ?_⟩
      exact ⟨setup.trans hend.setup, hend.phase, by simp [hend.bits, hbits]⟩

theorem Sound.of_run {k : Nat} {s t : State} (h : Sound s) (ht : Host.Core.run Sys2Proof.core k s = .next t) :
    Sound t := by
  obtain ⟨u, hu, hs⟩ := core_run_keeps Sys2Proof.core Sound (fun _ h => h.goesOnSound_step) k s h
  obtain rfl : u = t := Host.Outcome.next.inj (hu.symm.trans ht)
  exact hs

/-- A whole session: it ends with every bit taken, or in a fault, and then the sink failed. -/
theorem Sound.exists_run_whole_session {ys : List Byte} {s : State} (h : Sound s)
    (hp : s.phase = .ready ∨ s.phase = .done)
    (hin : s.env.inbox = .reg (packReg 1#1 0#4 3#32) :: sessionInputs ys) :
    ∃ t, Host.Core.run Sys2Proof.core (ys.length + 2) s = .next t ∧
      ((t.phase = .fault ∧ ¬ SinkOK (ys.length / s.cfgM.toNat) s) ∨ SessionEnd s (ys.map dataBit) t) := by
  obtain ⟨u, hstep, hu, setup, hinbox, ⟨hf, hclosed⟩ | ⟨hr, hbits, htakes⟩⟩ :=
    h.exists_step_openSession (q := ys.length / s.cfgM.toNat) hp hin
  · obtain ⟨t, ht, htf⟩ := run_of_fault hf (hinbox ▸ reset_notMem_sessionInputs ys) (ys.length + 1)
    exact ⟨t, (core_run_step Sys2Proof.core _ hstep).trans ht, .inl ⟨htf, hclosed⟩⟩
  · obtain ⟨t, ht, hend⟩ := hu.exists_run_session (q := ys.length / s.cfgM.toNat) ys hr hinbox
      (by simp [hbits, setup.cfgM])
    refine ⟨t, (core_run_step Sys2Proof.core _ hstep).trans ht, hend.imp (And.imp_right (mt htakes)) fun hend => ?_⟩
    exact ⟨setup.trans hend.setup, hend.phase, by simp [hend.bits, hbits]⟩

/-- The data bit of a byte as a number, also past the last byte. -/
theorem getD_map_dataBit_toNat (ys : List Byte) (j : Nat) :
    ((ys.map dataBit).getD j 0).toNat = (ys.getD j 0).toNat % 2 := by
  rw [show (0 : BitVec 1) = dataBit 0 from rfl, List.getD_map, dataBit_toNat]

/-- Settles O46: `Sound.exists_run_whole_session`, and what the end of a session holds is O45. -/
theorem wholeSessionGivesItsResult : Obligations.WholeSessionGivesItsResult := by
  rintro s e ys _ _ h hp rfl rfl hin
  have h' := h.withEnv e
  obtain ⟨t, hrun, ⟨hf, hfail⟩ | hend⟩ := h'.exists_run_whole_session (ys := ys) hp hin
  · have hcause : t.cause ≠ .none := (h'.of_run hrun).faultRecord.mpr hf
    exact ⟨t, hrun, fun hc => absurd hc hcause, fun a bursts rest htape ha hlen hle =>
      absurd ⟨a, bursts, rest, htape, ha, hlen, hle⟩ hfail⟩
  · obtain ⟨setup, hdone, hbits⟩ := hend
    obtain ⟨hcause, hrx, hacc, hlen, hsyms, hout, hsink, hbytes⟩ :=
      endedSessionHoldsItsResult t _ _ (h'.of_run hrun) hdone rfl rfl
    simp only [hbits, List.length_map, setup.cfgM, setup.sps, setup.tblAt_eq, getD_map_dataBit_toNat]
      at hlen hsyms hout hbytes
    exact ⟨t, hrun, fun _ => ⟨hdone, hrx, hacc, hlen, hsyms, hout, hsink, hbytes⟩, fun _ _ _ _ _ _ _ => hcause⟩

end Sys2Proof.Safety
end

section
/-! The statements about 60_exceptions.md: fault entry (R180), the wrong phase (R178), illegal writes (R179), and the
configurations that BCON and BTAB reject (R172 to R175, in the order of R184). -/

namespace Sys2Proof.Machine

/-! ### Fault entry (60_exceptions.md R180) -/

/-- Settles O10: `State.raise` is this update and nothing more. -/
theorem faultEntryRecordsTheCause : Obligations.FaultEntryRecordsTheCause := fun _ _ _ _ => rfl

/-! ### The wrong phase (60_exceptions.md R178) -/

theorem writeConfig_wrong {put : State → State} {s : State} (hf : s.phase ≠ .fault) (hi : s.phase ≠ .idle) :
    writeConfig put s = .next (s.raise .seq 0#32 (phaseWord s.phase)) :=
  inPhase_wrong (want := .idle) hf (by simpa using hi)

/-- Settles O13: every one of these operations is behind a phase check, whose wanted phase has the code that E_SEQ
records. -/
theorem wrongPhaseRaisesSequenceFault : Obligations.WrongPhaseRaisesSequenceFault := by
  intro s hf
  unfold exec
  refine ⟨fun hi d => ?config, fun hi => ?bcon, fun hc => ?btab, fun hr hd => ?openSession, fun hr => ?eoi,
    fun hr b => ?push⟩
  case config =>
    have hw {put : State → State} := writeConfig_wrong (put := put) hf hi
    exact ⟨hw, hw, hw, hw, hw, hw, hw⟩
  case bcon => exact inPhase_wrong (want := .idle) hf (by simpa using hi)
  case btab => exact inPhase_wrong (want := .const) hf (by simpa using hc)
  case openSession => exact inPhase_wrong (want := .ready) hf (by simp [hr, hd])
  case eoi | push => exact inPhase_wrong (want := .run) hf (by simpa using hr)

/-! ### Illegal writes (60_exceptions.md R179) -/

theorem illegalWrite_of_ne_fault {n d : Word} {s : State} (h : s.phase ≠ .fault) :
    illegalWrite n d s = .next (s.raise .cmd n d) :=
  if_neg (mt (faulted_iff s).mp h)

/-- Settles O15: each of the nine is `illegalWrite` with its register number. -/
theorem illegalWritesRaiseCommandFault : Obligations.IllegalWritesRaiseCommandFault := by
  intro s d h
  have hw {n : Word} := illegalWrite_of_ne_fault (n := n) (d := d) h
  unfold exec
  exact ⟨hw, hw, hw, hw, hw, hw, hw, hw, hw⟩

/-! ### What BCON rejects (60_exceptions.md R172, R175) -/

theorem buildConstellation_of_bad_count (num : Sys2Proof.Num) {s : State}
    (h : s.cfgM.toNat = 0 ∨ Config.mMax < s.cfgM.toNat) :
    buildConstellation num s = s.raise .cfgM (BitVec.ofNat 32 Config.mMax) s.cfgM :=
  if_pos h

theorem buildConstellation_of_bad_angle (num : Sys2Proof.Num) {s : State} (h1 : 1 ≤ s.cfgM.toNat)
    (hmax : s.cfgM.toNat ≤ Config.mMax) (hangle : isFinite (dec32 s.cfgAngle) = false) :
    buildConstellation num s = s.raise .cfgAngle 0#32 s.cfgAngle :=
  (if_neg (by omega)).trans (if_pos hangle)

theorem isFinite_eq_false_iff {f : F32} : isFinite f = false ↔ f.exp = 255#8 := by simp [isFinite]

/-- Settles O20: in P_IDLE BCON is `buildConstellation`, which checks M and then the angle. -/
theorem bconRejectsIllegalConfiguration : Obligations.BconRejectsIllegalConfiguration := by
  intro s h
  rw [exec_bcon_of_idle h]
  exact ⟨fun hm => congrArg _ (buildConstellation_of_bad_count _ hm), fun h1 hmax hexp =>
    congrArg _ (buildConstellation_of_bad_angle _ h1 hmax (isFinite_eq_false_iff.mpr hexp))⟩

/-! ### What BTAB rejects (60_exceptions.md R173, R174) -/

section
variable (num : Sys2Proof.Num) {s : State} {n : Nat}

theorem buildTables_of_fs_zero (hfs : s.cfgFs = 0#32) :
    buildTables num s = .ok (s.raise .cfgRate 1#32 0#32) :=
  if_pos hfs

theorem buildTables_of_baud_zero (hfs : s.cfgFs ≠ 0#32) (hbaud : s.cfgBaud = 0#32) :
    buildTables num s = .ok (s.raise .cfgRate 2#32 0#32) :=
  (if_neg hfs).trans (if_pos hbaud)

theorem buildTables_of_too_many_samples (hfs : s.cfgFs ≠ 0#32) (hbaud : s.cfgBaud ≠ 0#32)
    (hn : n = ceilDiv s.cfgFs.toNat s.cfgBaud.toNat) (hmax : Config.spsMax < n) :
    buildTables num s = .ok (s.raise .cfgRate (BitVec.ofNat 32 Config.spsMax) (BitVec.ofNat 32 n)) := by
  subst hn
  exact (if_neg hfs).trans <| (if_neg hbaud).trans <| if_pos hmax

theorem buildTables_of_bad_rows (hfs : s.cfgFs ≠ 0#32) (hbaud : s.cfgBaud ≠ 0#32)
    (hn : n = ceilDiv s.cfgFs.toNat s.cfgBaud.toNat) (hmax : n ≤ Config.spsMax) (hrows : s.tblRows ≠ s.nsym) :
    buildTables num s = .ok (s.raise .cfgDim s.nsym s.tblRows) := by
  subst hn
  exact (if_neg hfs).trans <| (if_neg hbaud).trans <| (if_neg hmax.not_gt).trans <| if_pos hrows

theorem buildTables_of_bad_columns (hfs : s.cfgFs ≠ 0#32) (hbaud : s.cfgBaud ≠ 0#32)
    (hn : n = ceilDiv s.cfgFs.toNat s.cfgBaud.toNat) (hmax : n ≤ Config.spsMax) (hrows : s.tblRows = s.nsym)
    (hcols : s.tblCols.toNat ≠ n) :
    buildTables num s = .ok (s.raise .cfgDim (BitVec.ofNat 32 n) s.tblCols) := by
  subst hn
  exact (if_neg hfs).trans <| (if_neg hbaud).trans <| (if_neg hmax.not_gt).trans <|
    (if_neg (not_not.mpr hrows)).trans <| if_pos hcols

end

theorem ceilDiv_le {a b : Nat} (hb : 0 < b) : ceilDiv a b ≤ a :=
  (ceilDiv_le_iff hb).mpr (Nat.le_mul_of_pos_right a hb)

/-- The computed number of samples, however far above `SPS_MAX`, fits in ERR_ACTUAL: it is at most CFG_FS. -/
theorem toNat_ofNat_ceilDiv {fs baud : Word} (hbaud : baud ≠ 0#32) :
    (BitVec.ofNat 32 (ceilDiv fs.toNat baud.toNat)).toNat = ceilDiv fs.toNat baud.toNat := by
  have hpos : 0 < baud.toNat := Nat.pos_of_ne_zero (by simpa [BitVec.toNat_eq] using hbaud)
  exact (BitVec.toNat_ofNat ..).trans (Nat.mod_eq_of_lt ((ceilDiv_le hpos).trans_lt fs.isLt))

/-- Settles O31: in P_CONST BTAB is `buildTables`, one lemma for each of its five checks in their order. -/
theorem btabRejectsIllegalConfiguration : Obligations.BtabRejectsIllegalConfiguration := by
  intro s n h hn
  rw [exec_btab_of_const h]
  refine ⟨fun hfs => ?fsZero, fun hfs hbaud => ?baudZero, fun hfs hbaud => ⟨fun hmax => ⟨?samples, ?fits⟩,
    fun hmax hrows => ?rows, fun hmax hrows hcols => ?columns⟩⟩
  case fsZero => exact congrArg finish (buildTables_of_fs_zero _ hfs)
  case baudZero => exact congrArg finish (buildTables_of_baud_zero _ hfs hbaud)
  case samples => exact congrArg finish (buildTables_of_too_many_samples _ hfs hbaud hn hmax)
  case fits => exact hn ▸ toNat_ofNat_ceilDiv hbaud
  case rows => exact congrArg finish (buildTables_of_bad_rows _ hfs hbaud hn hmax hrows)
  case columns => exact congrArg finish (buildTables_of_bad_columns _ hfs hbaud hn hmax hrows hcols)

end Sys2Proof.Machine
end

section
/-! The statements about 70_reset_and_hazards.md: RESET and the two phases it is the only way out of or back to (R195),
sound states do not stop (R197), and the start-up: configuration, BCON and BTAB (R200, R201), from the reset
configuration as well (R196). -/

namespace Sys2Proof.Machine

/-! ### RESET (70_reset_and_hazards.md R195, R199) -/

/-- Settles O8: RESET is the reset event, written out. -/
theorem resetRestoresTheResetState : Obligations.ResetRestoresTheResetState :=
  fun s => congrArg Host.Outcome.next (resetEvent_eq s)

/-- An operation other than RESET that completes does not start in P_FAULT, and ends in P_IDLE only where it started
there: so the table of phases says (30_encoding.md R78). -/
theorem phase_of_completed {i : Instr} {s t : State} (h : exec i s = .next t) (hi : i ≠ .reset)
    (ht : t.phase ≠ .fault) : s.phase ≠ .fault ∧ (t.phase = .idle → s.phase = .idle) := by
  have hphase := operationsLeaveThePhaseOfTheTable i s t h ht
  cases i with
  | reset => exact absurd rfl hi
  | rdreg n d =>
    replace hphase : t.phase = s.phase := hphase
    exact hphase ▸ ⟨ht, id⟩
  | wrregCfgM _ | wrregCfgFs _ | wrregCfgBaud _ | wrregCfgFc _ | wrregCfgAngle _ | wrregTblRows _
  | wrregTblCols _ =>
    obtain ⟨hs, _⟩ := hphase
    simp [hs]
  | bcon | btab | eoi | push _ | emit _ =>
    obtain ⟨hs, ht⟩ := hphase
    simp [hs, ht]
  | openSession =>
    obtain ⟨hs | hs, ht⟩ := hphase <;> simp [hs, ht]
  | cmdUndef _ | illegalStatus _ | illegalErrExpect _ | illegalErrActual _ | illegalNsym _ | illegalSps _
  | illegalRxbit _ | illegalBitsacc _ | illegalReserved15 _ => exact hphase.elim

/-- Settles O9: either clause, read backwards, is about an operation that completes (`phase_of_completed`). -/
theorem onlyResetLeavesFaultOrReturnsToIdle : Obligations.OnlyResetLeavesFaultOrReturnsToIdle := by
  intro i s t h hi
  refine ⟨fun hs => ?_, fun hs ht => ?_⟩
  · by_contra ht
    obtain ⟨hne, _⟩ := phase_of_completed h hi ht
    exact hne hs
  · obtain ⟨_, hidle⟩ := phase_of_completed h hi (by simp [ht])
    exact hs (hidle ht)

/-! ### The seven configuration writes (70_reset_and_hazards.md R200) -/

/-- A write whose operation updates the configuration by `put`, offered in P_IDLE. -/
theorem run_config_write {k : Nat} {n : BitVec 4} {d : Word} {put : State → State} {s : State} {ps : List Packet}
    (hin : s.env.inbox = .reg (packReg 1#1 n d) :: ps)
    (hput : ∀ t, exec (decodeWrite n d) t = writeConfig put t) (hp : s.phase = .idle) :
    Host.Core.run Sys2Proof.core (k + 1) s =
      Host.Core.run Sys2Proof.core k (put { s with env := { s.env with inbox := ps } }) := by
  refine core_run_step Sys2Proof.core k (?_ : step s = .next _)
  rw [step_of_inbox_cons hin, decode_packReg_write, hput]
  exact writeConfig_idle hp

/-- Seven writes in P_IDLE set the seven configuration registers and nothing else. -/
theorem run_config_writes (k : Nat) {s : State} {m fs baud fc angle rows cols : Word} {ps : List Packet}
    (hp : s.phase = .idle)
    (hin : s.env.inbox =
      .reg (packReg 1#1 4#4 m) :: .reg (packReg 1#1 5#4 fs) :: .reg (packReg 1#1 6#4 baud) ::
        .reg (packReg 1#1 7#4 fc) :: .reg (packReg 1#1 8#4 angle) :: .reg (packReg 1#1 9#4 rows) ::
        .reg (packReg 1#1 10#4 cols) :: ps) :
    Host.Core.run Sys2Proof.core (k + 7) s =
      Host.Core.run Sys2Proof.core k
        { s with
          cfgM := m, cfgFs := fs, cfgBaud := baud, cfgFc := fc, cfgAngle := angle, tblRows := rows, tblCols := cols
          env := { s.env with inbox := ps } } := by
  refine Eq.trans (run_config_write hin (fun _ => rfl) hp) ?_
  iterate 6 refine Eq.trans (run_config_write rfl (fun _ => rfl) hp) ?_
  rfl

/-! ### BCON and BTAB with a legal configuration (70_reset_and_hazards.md R201) -/

/-- The configuration passes every check of BCON and BTAB (60_exceptions.md R172 to R175). -/
structure LegalConfig (s : State) : Prop where
  mPos : 1 ≤ s.cfgM.toNat
  mMax : s.cfgM.toNat ≤ Config.mMax
  angle : isFinite (dec32 s.cfgAngle) = true
  fsPos : s.cfgFs ≠ 0#32
  baudPos : s.cfgBaud ≠ 0#32
  spsMax : ceilDiv s.cfgFs.toNat s.cfgBaud.toNat ≤ Config.spsMax
  rows : s.tblRows.toNat = 2 ^ s.cfgM.toNat
  cols : s.tblCols.toNat = ceilDiv s.cfgFs.toNat s.cfgBaud.toNat

theorem LegalConfig.withEnv {s : State} (h : LegalConfig s) (e : Env) : LegalConfig { s with env := e } :=
  ⟨h.mPos, h.mMax, h.angle, h.fsPos, h.baudPos, h.spsMax, h.rows, h.cols⟩

/-- What BCON leaves of `s`: a constellation as large as the table is pre-sized, with `ps` still offered. -/
def State.withConstellation (s : State) (const : Mem Symbol) (ps : List Packet) : State :=
  { s with const, nsym := s.tblRows, phase := .const, env := { s.env with inbox := ps } }

/-- What BTAB leaves of `s`: a template and a table as wide as the table is pre-sized, with `ps` still offered. -/
def State.withTables (s : State) (tmpl tbl : Mem C32) (ps : List Packet) : State :=
  { s with tmpl, tbl, sps := s.tblCols, phase := .ready, env := { s.env with inbox := ps } }

theorem LegalConfig.withConstellation {s : State} (h : LegalConfig s) (const : Mem Symbol) (ps : List Packet) :
    LegalConfig (s.withConstellation const ps) :=
  ⟨h.mPos, h.mMax, h.angle, h.fsPos, h.baudPos, h.spsMax, h.rows, h.cols⟩

theorem step_bcon {s : State} {ps : List Packet} (hp : s.phase = .idle)
    (hin : s.env.inbox = .reg (packReg 1#1 0#4 1#32) :: ps) :
    step s = .next (buildConstellation Config.num { s with env := { s.env with inbox := ps } }) := by
  rw [step_of_inbox_cons hin, decode_packReg_write]
  exact exec_bcon_of_idle hp

theorem step_btab {s : State} {ps : List Packet} (hp : s.phase = .const)
    (hin : s.env.inbox = .reg (packReg 1#1 0#4 2#32) :: ps) :
    step s = finish (buildTables Config.num { s with env := { s.env with inbox := ps } }) := by
  rw [step_of_inbox_cons hin, decode_packReg_write]
  exact exec_btab_of_const hp

/-- BCON offered in P_IDLE with a legal configuration. -/
theorem LegalConfig.exists_step_bcon {s : State} {ps : List Packet} (h : LegalConfig s) (hp : s.phase = .idle)
    (hin : s.env.inbox = .reg (packReg 1#1 0#4 1#32) :: ps) :
    ∃ const, step s = .next (s.withConstellation const ps) := by
  have hnsym : BitVec.ofNat 32 (2 ^ s.cfgM.toNat) = s.tblRows :=
    BitVec.eq_of_toNat_eq ((Config.toNat_ofNat_two_pow h.mMax).trans h.rows.symm)
  have h' := h.withEnv { s.env with inbox := ps }
  refine ⟨s.const.writeList 0 (constellation Config.num (dec32 s.cfgAngle) s.cfgM.toNat), ?_⟩
  rw [step_bcon hp hin, buildConstellation_of_legal _ h'.mPos h'.mMax h'.angle, hnsym]
  rfl

end Sys2Proof.Machine

namespace Sys2Proof.Safety

open Sys2Proof.Machine

/-- Settles O43: a sound state goes on, to a sound state even. -/
theorem soundStatesAlwaysGoOn : Obligations.SoundStatesAlwaysGoOn := by
  intro s h
  obtain ⟨t, ht, _⟩ := h.goesOnSound_step
  exact ⟨t, ht⟩

/-- BTAB offered in P_CONST with a legal configuration, whose size is that of the constellation. -/
theorem Sound.exists_step_btab {s : State} {ps : List Packet} (h : Sound s) (hp : s.phase = .const)
    (hc : LegalConfig s) (hrows : s.tblRows = s.nsym) (hin : s.env.inbox = .reg (packReg 1#1 0#4 2#32) :: ps) :
    ∃ tmpl tbl, step s = .next (s.withTables tmpl tbl ps) := by
  have hsps : BitVec.ofNat 32 (ceilDiv s.cfgFs.toNat s.cfgBaud.toNat) = s.tblCols :=
    BitVec.eq_of_toNat_eq ((Config.toNat_ofNat_sps hc.spsMax).trans hc.cols.symm)
  have hc' := hc.withEnv { s.env with inbox := ps }
  obtain ⟨t, hfill, _⟩ := (h.withEnv { s.env with inbox := ps }).exists_fillTables hp hc'.fsPos hc'.baudPos rfl
    hc'.spsMax hrows hc'.cols
  obtain ⟨tmpl, tbl, rfl⟩ := fillTables_frame hfill
  refine ⟨tmpl, tbl, ?_⟩
  rw [step_btab hp hin, buildTables_of_legal _ hc'.fsPos hc'.baudPos rfl hc'.spsMax hrows hc'.cols, hfill, hsps]
  rfl

/-- BCON and BTAB with a legal configuration: to P_READY, with the configuration as it was, one row for each symbol and
one column for each sample. -/
theorem Sound.exists_run_builders (k : Nat) {s : State} {ps : List Packet} (h : Sound s) (hp : s.phase = .idle)
    (hc : LegalConfig s)
    (hin : s.env.inbox = .reg (packReg 1#1 0#4 1#32) :: .reg (packReg 1#1 0#4 2#32) :: ps) :
    ∃ const tmpl tbl t, t = (s.withConstellation const ps).withTables tmpl tbl ps ∧ Sound t ∧
      Host.Core.run Sys2Proof.core (k + 2) s = Host.Core.run Sys2Proof.core k t := by
  obtain ⟨const, hbcon⟩ := hc.exists_step_bcon hp hin
  have hu := stepKeepsTheInvariant s _ h hbcon
  obtain ⟨tmpl, tbl, hbtab⟩ := hu.exists_step_btab rfl (hc.withConstellation const _) rfl rfl
  exact ⟨const, tmpl, tbl, _, rfl, stepKeepsTheInvariant _ _ hu hbtab,
    (core_run_step Sys2Proof.core (k + 1) hbcon).trans (core_run_step Sys2Proof.core k hbtab)⟩

/-- Settles O47: the writes make the configuration of the reset state legal, and the builders go on from there. -/
theorem startUpWithALegalConfigurationIsReady : Obligations.StartUpWithALegalConfigurationIsReady := by
  intro m fs baud fc angle rows cols h1 hmax hangle hfs hbaud hsps hrows hcols
  have hsound := (resetStateIsSound { Env.quiet with
    inbox := [.reg (packReg 1#1 0#4 1#32), .reg (packReg 1#1 0#4 2#32)] }).withConfig rfl m fs baud fc angle rows cols
  obtain ⟨_, _, _, t, ht, hs, hrun⟩ := hsound.exists_run_builders 0 rfl
    ⟨h1, hmax, hangle, hfs, hbaud, hsps, hrows, hcols⟩ rfl
  have hready : t.phase = .ready := by rw [ht]; rfl
  refine ⟨t, (run_config_writes 2 rfl rfl).trans hrun, hs, hready, hs.cause_eq_none (by simp [hready]), ?_⟩
  subst ht
  exact ⟨rfl, rfl, rfl, rfl, rfl, rfl, rfl, rfl, rfl⟩

/-! ### The reset configuration (70_reset_and_hazards.md R196) -/

/-- The least `M_MAX` and `SPS_MAX` (log 1) admit M = 2 and 1064 samples per symbol. -/
theorem legalConfig_reset : LegalConfig State.reset where
  mPos := by decide
  mMax := Config.two_le_mMax
  angle := by decide
  fsPos := by decide
  baudPos := by decide
  spsMax := by
    have hsps : ceilDiv State.reset.cfgFs.toNat State.reset.cfgBaud.toNat = 1064 := by decide
    exact hsps ▸ Config.spsMax_ge
  rows := by decide
  cols := by decide

/-- Settles O48: the builders from the reset configuration, and then OPEN, with an answer that opens the sink. -/
theorem resetConfigurationReachesASession : Obligations.ResetConfigurationReachesASession := by
  intro e a rest hin htape ha
  obtain ⟨_, _, _, t, ht, hs, hrun⟩ :=
    (resetStateIsSound e).exists_run_builders 1 rfl (legalConfig_reset.withEnv e) hin
  have hsink : SinkOK 0 t := ⟨a, [], rest, by rw [ht]; exact htape, ha, rfl, by simp⟩
  have hready : t.phase = .ready := by rw [ht]; rfl
  obtain ⟨u, hopen, hu, setup, _, ⟨_, hclosed⟩ | ⟨hr, _⟩⟩ :=
    hs.exists_step_openSession (q := 0) (.inl hready) (by rw [ht]; rfl)
  · exact absurd hsink hclosed
  · refine ⟨u, hrun.trans (core_run_step Sys2Proof.core 0 hopen), hu, hr, hu.cause_eq_none (by simp [hr]), ?_, ?_⟩
    · rw [setup.nsym, ht]; rfl
    · rw [setup.sps, ht]; rfl

end Sys2Proof.Safety
end
